-- ==== Sys2Proof/Word.lean ====
section
/-!
DEFINITION. The word types of the OWT block. Every value of the block is an unsigned integer of 1, 8, 16 or 32 bits
(30_encoding.md R111, 00_scope.md R9); a bit that lives alone is a Bool, `true` for 1 and for a high line.
-/
namespace Sys2Proof

/-- One register byte, bits numbered 7 down to 0 (R9). -/
abbrev Byte := BitVec 8

/-- An eight-byte buffer, byte `k` at index `k`: `ID[0..7]`, `PREV[0..7]`, a device's identity (R31, R32, R103). -/
abbrev Ident := Vector Byte 8

/-- Eight zero bytes. -/
def Ident.zero : Ident := Vector.replicate 8 0

end Sys2Proof
end

