-- ==== Sys2Proof/Syntax.lean ====
section
/-!
DEFINITION. The commands of the block: one constructor per row of spec/opcode_table.json (30_encoding.md R92). A command
carries no register number and no immediate, its operands are fixed registers (R90, R93), so no constructor has an
argument.
-/
namespace Sys2Proof

inductive Instr where
  /-- 0x10 `BUS_RESET`, R123. -/
  | busReset
  /-- 0x11 `WRITE_BIT`, R124. -/
  | writeBit
  /-- 0x12 `READ_BIT`, R125. -/
  | readBit
  /-- 0x13 `WRITE_BYTE`, R132. -/
  | writeByte
  /-- 0x14 `READ_BYTE`, R133. -/
  | readByte
  /-- 0x15 `MATCH_ID`, R134. -/
  | matchId
  /-- 0x16 `SPU_ON`, R126. -/
  | spuOn
  /-- 0x17 `SPU_OFF`, R127. -/
  | spuOff
  /-- 0x20 `CRC_STEP`, R142. -/
  | crcStep
  /-- 0x21 `CRC_ID`, R143. -/
  | crcId
  /-- 0x30 `SRCH_START`, R150. -/
  | srchStart
  /-- 0x31 `SRCH_START_A`, R151. -/
  | srchStartA
  /-- 0x32 `SRCH_PASS`, R152. -/
  | srchPass
  /-- 0x33 `SRCH_PASS_A`, R154. -/
  | srchPassA
  /-- 0x40 `SYNC`, R175. -/
  | sync
  /-- 0x50 `SET_RDY`, R185. -/
  | setRdy
  /-- 0x51 `CLR_ERR`, R186. -/
  | clrErr
  deriving DecidableEq, Repr

end Sys2Proof
end

