-- ==== Sys2Proof/WellFormed.lean ====
section
/-!
DEFINITION. The format `C` of a command byte (30_encoding.md R90) and what makes its two fields well formed. A command has
no operand, so the check on an instruction is the check on the two fields its row of the opcode table gives it.
-/
namespace Sys2Proof

/-- The two fields of format `C`: `fam` in bits 7:4, `fn` in bits 3:0. -/
structure CmdFields where
  fam : Nat
  fn : Nat
  deriving DecidableEq, Repr

namespace CmdFields

/-- Both fields are four bits wide. -/
def fits (f : CmdFields) : Bool := decide (f.fam < 16) && decide (f.fn < 16)

/-- Families 1 bus transport, 2 CRC, 3 discovery, 4 tick, 5 flags. -/
def famDefined (f : CmdFields) : Bool := decide (1 ≤ f.fam) && decide (f.fam ≤ 5)

/-- How many functions a family has (R92). -/
def fnCount : Nat → Nat
  | 1 => 8
  | 2 => 2
  | 3 => 4
  | 4 => 1
  | 5 => 2
  | _ => 0

/-- The function is one the family has; in family 3 this is `fn[3:2] = 0`. -/
def fnDefined (f : CmdFields) : Bool := decide (f.fn < fnCount f.fam)

/-- All the checks of R90 and R92 on the two fields. -/
def wellFormed (f : CmdFields) : Bool := f.fits && f.famDefined && f.fnDefined

end CmdFields

/-- The fields the opcode table gives each command (`source_fields` of its row; R92). -/
def Instr.fields : Instr → CmdFields
  | .busReset => ⟨1, 0⟩
  | .writeBit => ⟨1, 1⟩
  | .readBit => ⟨1, 2⟩
  | .writeByte => ⟨1, 3⟩
  | .readByte => ⟨1, 4⟩
  | .matchId => ⟨1, 5⟩
  | .spuOn => ⟨1, 6⟩
  | .spuOff => ⟨1, 7⟩
  | .crcStep => ⟨2, 0⟩
  | .crcId => ⟨2, 1⟩
  | .srchStart => ⟨3, 0⟩
  | .srchStartA => ⟨3, 1⟩
  | .srchPass => ⟨3, 2⟩
  | .srchPassA => ⟨3, 3⟩
  | .sync => ⟨4, 0⟩
  | .setRdy => ⟨5, 0⟩
  | .clrErr => ⟨5, 1⟩

/-- An instruction is well formed when its fields are. -/
def Instr.wellFormed (i : Instr) : Bool := i.fields.wellFormed

end Sys2Proof
end

