-- ==== Sys2Proof/Decode.lean ====
section
/-!
DEFINITION. From a command byte to a command and back (30_encoding.md R90 to R97). There is one instruction length, 8 bits;
the decoder matches the whole byte, the same way in every state (R97), and rejects every other value by name (R95).
-/
namespace Sys2Proof

/-- Why bytes are no command. -/
inductive DecodeReject where
  /-- There is no byte to decode. -/
  | noByte
  /-- The byte is one of the 239 values that R92 does not list (R95). -/
  | illegalOpcode (b : Byte)
  deriving DecidableEq, Repr

/-- The opcode map of R92, mask 0xFF. -/
def decode (b : Byte) : Except DecodeReject Instr :=
  match b.toNat with
  | 0x10 => .ok .busReset
  | 0x11 => .ok .writeBit
  | 0x12 => .ok .readBit
  | 0x13 => .ok .writeByte
  | 0x14 => .ok .readByte
  | 0x15 => .ok .matchId
  | 0x16 => .ok .spuOn
  | 0x17 => .ok .spuOff
  | 0x20 => .ok .crcStep
  | 0x21 => .ok .crcId
  | 0x30 => .ok .srchStart
  | 0x31 => .ok .srchStartA
  | 0x32 => .ok .srchPass
  | 0x33 => .ok .srchPassA
  | 0x40 => .ok .sync
  | 0x50 => .ok .setRdy
  | 0x51 => .ok .clrErr
  | _ => .error (.illegalOpcode b)

/-- Decoding from a sequence of bytes: the command and the bytes after it. -/
def decodeBytes : List Byte → Except DecodeReject (Instr × List Byte)
  | [] => .error .noByte
  | b :: rest =>
    match decode b with
    | .ok i => .ok (i, rest)
    | .error e => .error e

/-- The byte with the given fields, `fam` in bits 7:4 and `fn` in bits 3:0 (R90). -/
def CmdFields.toByte (f : CmdFields) : Byte := BitVec.ofNat 8 (f.fam * 16 + f.fn)

/-- The two fields of a byte (R90). -/
def CmdFields.ofByte (b : Byte) : CmdFields := ⟨b.toNat / 16, b.toNat % 16⟩

/-- The command's one byte, assembled from its fields. -/
def encode (i : Instr) : Byte := i.fields.toByte

/-- The host's question: the command that the decoder reads from the `nbits` low bits of `w`, bits above them zero.
A command is one byte, so the table asks with 8 bits; a longer word is not one command. -/
def decodeTableWord (nbits w : Nat) : Option Instr :=
  if nbits ≤ 8 then
    match decodeBytes [BitVec.ofNat 8 (w % 2 ^ nbits)] with
    | .ok (i, _) => some i
    | .error _ => none
  else none

end Sys2Proof
end

