-- ==== Sys2Proof/Config.lean ====
section
/-!
DEFINITION. What one build of the block fixes: the parameters of 00_scope.md R7, the alphabet of line events that
carry the nominal durations (20_memory.md R69), and the values the spec leaves free (the answers of the line, the
timer period, the base address), which are constants with no body.
-/
namespace Sys2Proof

/-- The line events of 20_memory.md R69. A duration is a label in microseconds; nothing depends on it (R240). -/
inductive LineEvent where
  /-- `Low(t)`: the block asserts the line and holds it for nominal `t`. -/
  | low (t : Nat)
  /-- `Rel(t)`: the block stops asserting, then nominal `t` passes. -/
  | rel (t : Nat)
  /-- `Smp(b)`: the line is sampled at level `b`, `true` for high. -/
  | smp (b : Bool)
  /-- `Spu(v)`: the strong pull-up becomes `v`. -/
  | spu (v : Bool)
  deriving DecidableEq, Repr

/-- The parameters of R7, each a field as R7 asks. State carries one such record and no step changes it, so a statement over
all states holds for every value of every parameter (R8). -/
structure Config where
  /-- `T_RSTL`, reset low time. -/
  tRstl : Nat
  /-- `T_PDS`, delay from release to the presence sample. -/
  tPds : Nat
  /-- `T_RSTR`, recovery after the presence sample. -/
  tRstr : Nat
  /-- `T_SLOT`, length of one bit slot. -/
  tSlot : Nat
  /-- `T_W1L`, low time when writing 1. -/
  tW1l : Nat
  /-- `T_W1H`, released time when writing 1. -/
  tW1h : Nat
  /-- `T_W0L`, low time when writing 0. -/
  tW0l : Nat
  /-- `T_W0H`, released time when writing 0. -/
  tW0h : Nat
  /-- `T_RDL`, low time when reading. -/
  tRdl : Nat
  /-- `T_RDS`, settle time before the read sample. -/
  tRds : Nat
  /-- `T_RDR`, rest of the read slot. -/
  tRdr : Nat
  /-- `CRC_POLY`, the reflected polynomial (R140; 90_conflicts.md C7). -/
  crcPoly : Byte
  /-- `CRC_INIT`, the start value of a fold (R141, decision D9). -/
  crcInit : Byte
  /-- `CMD_MATCH`, the wire byte of the match transaction. -/
  cmdMatch : Byte
  /-- `CMD_SEARCH`, the wire byte of the normal search. -/
  cmdSearch : Byte
  /-- `CMD_ALARM`, the wire byte of the alarm search. -/
  cmdAlarm : Byte
  /-- `FORK_START`, the value of `FORK` at the start of a run (R150; 90_conflicts.md C3). -/
  forkStart : Byte
  /-- `ID_BYTES`, the bytes of an identity: the width that the type `Ident` carries. -/
  idBytes : Nat
  /-- `TICK_WINDOW`, the modulus of the tick counter. DESIGN CHOICE, unsafe: notes/assumptions/4. -/
  tickWindow : Nat
  /-- `TICK_BITS`, the width of the tick counter: that of the field `tick` of State. -/
  tickBits : Nat
  /-- `SEC_BITS`, the width of the seconds counter: that of the field `sec` of State. -/
  secBits : Nat
  /-- `T_TICK`, the period of the hardware timer in microseconds. -/
  tTick : Nat
  /-- `CNT_BITS`, the width of each identity count: that of the fields `cntN` and `cntA` of State. -/
  cntBits : Nat
  /-- `OWT_BASE`, the bus address of register offset 0. -/
  owtBase : Nat
  deriving DecidableEq, Repr

namespace Config

/-- The base address of the build that `nominal` describes: R7 leaves `OWT_BASE` open with no default (U8), so it is free
and has no body. DESIGN CHOICE, safe: notes/assumptions/3. -/
opaque freeBase : Nat

/-- One less than the timer period of that build: `T_TICK` is open with no default (U7), some positive duration
(92_eei_decisions.md, open parameters). Free: it has no body. DESIGN CHOICE, safe: notes/assumptions/3. -/
opaque freePeriodPred : Nat

/-- The values R7 gives, with the spec's default window of 1000; the two parameters without a default are free. -/
def nominal : Config where
  tRstl := 480
  tPds := 70
  tRstr := 410
  tSlot := 70
  tW1l := 6
  tW1h := 64
  tW0l := 60
  tW0h := 10
  tRdl := 6
  tRds := 9
  tRdr := 55
  crcPoly := 0x8C
  crcInit := 0x00
  cmdMatch := 0x55
  cmdSearch := 0xF0
  cmdAlarm := 0xEC
  forkStart := 65
  idBytes := 8
  tickWindow := 1000
  tickBits := 16
  secBits := 32
  tTick := freePeriodPred + 1
  cntBits := 8
  owtBase := freeBase

/-- R8: `2 <= TICK_WINDOW <= 2^TICK_BITS`. -/
abbrev WindowAdmitted (c : Config) : Prop := 2 ≤ c.tickWindow ∧ c.tickWindow ≤ 2 ^ c.tickBits

/-- The parameters that R7 fixes and that 92_eei_decisions.md does not keep open: the polynomial, the two start values, the
widths (DESIGN CHOICE, unsafe: notes/assumptions/5), what it derives of the write slots, and that `T_TICK` is positive. -/
abbrev FixedValues (c : Config) : Prop :=
  c.crcPoly = 0x8C#8 ∧ c.crcInit = 0x00#8 ∧ c.forkStart = 65#8 ∧ c.idBytes = 8 ∧ c.tickBits = 16 ∧ c.secBits = 32 ∧
  c.cntBits = 8 ∧ c.tW1l + c.tW1h = c.tSlot ∧ c.tW0l + c.tW0h = c.tSlot ∧ 0 < c.tTick

/-- A configuration of this block: R7 and R8. -/
abbrev Admitted (c : Config) : Prop := c.WindowAdmitted ∧ c.FixedValues

/-- The nominal line times of R7. -/
abbrev NominalLineTimes (c : Config) : Prop :=
  c.tRstl = 480 ∧ c.tPds = 70 ∧ c.tRstr = 410 ∧ c.tW1l = 6 ∧ c.tW1h = 64 ∧ c.tW0l = 60 ∧ c.tW0h = 10 ∧ c.tRdl = 6 ∧
  c.tRds = 9 ∧ c.tRdr = 55

/-- What the line answers to a sample that no described environment answers: a function of the whole trace so far
(newest event first) and of the number of such answers already drawn, which stands for the environment's own choices
(20_memory.md R70, 93_implementation_defined.md U5, U12). Free: it has no body. DEDUCED, safe: notes/assumptions/1. -/
opaque lineOracle : List LineEvent → Nat → Bool

end Config
end Sys2Proof
end

