-- ==== Sys2Proof/Machine/State.lean ====
section
/-!
DEFINITION. The state of the block as plain data: the elements of 10_state.md R20, the line as far as a model must hold it
(20_memory.md R69 to R71: the event history and the bus environment), the inputs that have not been delivered yet, and the
values host reads returned. The reset values are those of 10_state.md R41.
-/
namespace Sys2Proof.Machine

/-- The phases of a triplet as a device sees it: the source rule writes them 0, 1, 2 (20_memory.md R71). -/
inductive Phase where
  /-- 0: the device will send its true bit in the next read slot. -/
  | trueBit
  /-- 1: the device will send the complement in the next read slot. -/
  | complement
  /-- 2: the device waits for the write slot that steers it. -/
  | choice
  deriving DecidableEq, Repr

/-- The protocol state `st_d` of a device of the reference environment (R71). -/
inductive DeviceState where
  /-- `Idle`: takes no part until the next reset pulse. -/
  | idle
  /-- `Cmd(n, acc)`: has taken `n` bits of the wire command byte, collected in `acc`. -/
  | command (n : Nat) (acc : Byte)
  /-- `Search(i, ph)`: takes part in a search at bit position `i`. -/
  | search (i : Nat) (ph : Phase)
  /-- `Match(i)`: compares bit position `i` of a match transaction. -/
  | matching (i : Nat)
  /-- `Selected`: its whole identity has been followed or matched. -/
  | selected
  deriving DecidableEq, Repr

/-- A device of the reference environment: its identity `rom_d`, its alarm condition, its protocol state (R71). -/
structure Device where
  rom : Ident
  alarm : Bool
  st : DeviceState
  deriving DecidableEq, Repr

/-- The reference environment (R71): the devices on the line, whether the line is stuck low (the variant at the end of
R71), and whether the devices' states are known. `settled` is false from a block reset that cut a slot short until the
next reset pulse (93_implementation_defined.md U12). -/
structure Reference where
  devices : List Device
  stuckLow : Bool
  settled : Bool
  deriving DecidableEq, Repr

/-- The bus environment, the fourth agent of 00_scope.md R13: everything on the line that is not the block. -/
inductive Environment where
  /-- Nothing is known of the devices: every sample is drawn from `Config.lineOracle` (R70). -/
  | unconstrained
  /-- The next samples are these, in this order; after them samples are drawn from `Config.lineOracle`. -/
  | scripted (answers : List Bool)
  /-- The reference environment of R71. -/
  | reference (r : Reference)
  deriving DecidableEq, Repr

/-- The line driver and what it drives: `DQ_LOW` (10_state.md R27), the trace of line events with the newest first
(20_memory.md R69), the bus environment, and how many answers were drawn from the oracle. The line procedures work on
this record alone. -/
structure Line where
  dqLow : Bool
  trace : List LineEvent
  env : Environment
  draws : Nat
  deriving DecidableEq, Repr

/-- The tick group (10_state.md R34 to R38): all the tick agent can touch (R40). -/
structure TickState where
  /-- `TIE`, the tick interrupt enable. -/
  tie : Bool
  /-- `TF`, the "tick occurred" flag. -/
  tf : Bool
  /-- `TPEND`, one held timer event. -/
  tpend : Bool
  /-- `TICK`, 16 bits. -/
  tick : BitVec 16
  /-- `SNAP`, 16 bits. -/
  snap : BitVec 16
  /-- `SEC`, 32 bits. -/
  sec : BitVec 32
  deriving DecidableEq, Repr

/-- One host access to the register space (20_memory.md R61): an offset from `OWT_BASE` and a width in bytes. -/
inductive Access where
  /-- `MemRead(offset, width)`. -/
  | read (offset width : Nat)
  /-- `MemWrite(offset, width, v)`. -/
  | write (offset width : Nat) (v : Byte)
  deriving DecidableEq, Repr

/-- What can arrive at the block's ports besides reset (20_memory.md R67): a host access, or a pulse on `timer_tick`. -/
inductive PortEvent where
  | access (a : Access)
  | timerTick
  deriving DecidableEq, Repr

/-- One step of the world outside the command engine, in the total order of 20_memory.md R72. -/
inductive Input where
  /-- A port event while the block runs. -/
  | port (e : PortEvent)
  /-- `rst_n` is asserted between two steps and released again; `during` arrived while it was low and is lost
  (70_reset_and_hazards.md R220, 93_implementation_defined.md U19). DEDUCED, safe: notes/assumptions/12. -/
  | blockReset (during : List PortEvent)
  /-- The host wrote `opcode` to `CMD`, and `rst_n` was asserted when the command had emitted `events` line events:
  the command is abandoned there (R220, vector Z3). DEDUCED, unsafe: notes/assumptions/11. -/
  | resetDuring (opcode : Byte) (events : Nat)
  /-- The bus environment changes by its own choice, as when a device is attached or taken away (program P5 line 8). -/
  | environment (e : Environment)
  deriving DecidableEq, Repr

/-- How a command ends (30_encoding.md R96). -/
inductive ResultCode where
  | ok
  | busFault
  | crcMismatch
  | noCursor
  | spuHeld
  | illegal
  deriving DecidableEq, Repr

/-- The causes of a bus fault (60_exceptions.md R191). The block records neither the cause nor the position. -/
inductive BusFaultCause where
  | noPresence
  | noResponse (i : Nat)
  deriving DecidableEq, Repr

/-- What stops the machine with a fault: nothing does. The two faults of 60_exceptions.md R191 and R192 are outcomes of
commands, reported in `RES`, after which the block goes on; "Nothing is fatal" (R209). So the type has no constructor,
and that no step faults is true by its form. DEDUCED, safe: notes/assumptions/15. -/
inductive Fault where
  deriving DecidableEq, Repr

/-- What the model gives no meaning to. -/
inductive Refusal where
  /-- Raised by an arm of `exec` whose command has no meaning yet, with the command's mnemonic. Safe: the model stops.
  No arm raises it. -/
  | notModelled (mnemonic : String)
  /-- Raised by a host access at an offset above 0x2F: "an access there is not an access to this block and this spec
  says nothing of it" (20_memory.md R61, 93_implementation_defined.md U9). Safe: the model stops. -/
  | outsideBlock (offset : Nat)
  /-- Raised by a host access of another width than one byte: "Only one-byte accesses exist; a model refuses any other
  width" (R61). Safe: the model stops. -/
  | accessWidth (width : Nat)
  deriving DecidableEq, Repr

/-- The whole state. `cfg` is the configuration, which no step changes. `line`, `reads` and `inputs` are what the model
adds to the elements of R20: the line-event history and the environment (R69, R70), the bytes host reads returned with
the newest first (R61), and the inputs still to come in their order (R72). DESIGN CHOICE, safe: notes/assumptions/8, 9, 18. -/
structure State where
  cfg : Config
  /-- `CMD`, R23. -/
  cmd : Byte
  /-- `RES`, R24. -/
  res : Byte
  /-- `DATA`, R25. -/
  data : Byte
  /-- `FLAGS`, R26. -/
  flags : Byte
  /-- `SPU`, R28. -/
  spu : Bool
  /-- `DQ_LOW` (R27) with the line. -/
  line : Line
  /-- `CRC`, R29. -/
  crc : Byte
  /-- `FORK`, R30. -/
  fork : Byte
  /-- `ID[0..7]`, R31. -/
  id : Ident
  /-- `PREV[0..7]`, R32. -/
  prev : Ident
  /-- `CNT_N`, R33. -/
  cntN : Byte
  /-- `CNT_A`, R33. -/
  cntA : Byte
  /-- `TIE`, `TF`, `TPEND`, `TICK`, `SNAP`, `SEC`, R34 to R37. -/
  ticks : TickState
  reads : List Byte
  inputs : List Input
  deriving DecidableEq, Repr

/-- The tick group after reset (R41). -/
def TickState.reset : TickState :=
  { tie := false, tf := false, tpend := false, tick := 0, snap := 0, sec := 0 }

/-- The line before anything happened on it: released, no event, an unknown environment. DESIGN CHOICE, safe:
notes/assumptions/2; `draws` is the counter of the free values, its 0 a DESIGN CHOICE that nothing rests on:
notes/assumptions/1. -/
def Line.reset : Line :=
  { dqLow := false, trace := [], env := .unconstrained, draws := 0 }

/-- Every element of R20 at the value of R41, under the configuration `c`, with nothing pending. -/
def State.resetWith (c : Config) : State :=
  { cfg := c, cmd := 0, res := 0, data := 0, flags := 0, spu := false, line := Line.reset, crc := 0, fork := 0,
    id := Ident.zero, prev := Ident.zero, cntN := 0, cntA := 0, ticks := TickState.reset, reads := [], inputs := [] }

/-- The block right after power-on, under the parameter values of R7. -/
def State.reset : State := State.resetWith Config.nominal

end Sys2Proof.Machine
end

