-- ==== Sys2Proof/Machine/Operands.lean ====
section
/-!
DEFINITION. Every operand form of the block: single bits of a byte and their assembly (30_encoding.md R93), the byte and
bit positions of an eight-byte buffer (R104), the bytes of the multi-byte registers (20_memory.md R62), the result codes
(R96).
-/
namespace Sys2Proof.Machine

/-- `zext_8(b)` of one bit: 0x00 or 0x01 (R93). -/
def zext8 (b : Bool) : Byte := if b then 0x01 else 0x00

/-- `v[k] <- b` for one bit of a byte. -/
def setBit (v : Byte) (k : Nat) (b : Bool) : Byte :=
  if b then v ||| (1#8 <<< k) else v &&& ~~~(1#8 <<< k)

/-- The bit numbers of a byte frame in the order they travel: 0 first (R102). -/
def frameBits : List Nat := [0, 1, 2, 3, 4, 5, 6, 7]

/-- Byte `k` of a buffer, `0 <= k <= 7`. -/
def identByte (buf : Ident) (k : Nat) : Byte := buf[k]?.getD 0

/-- `buf[k] <- v`, `0 <= k <= 7`. -/
def setIdentByte (buf : Ident) (k : Nat) (v : Byte) : Ident := buf.setIfInBounds k v

/-- `idbit(buf, i)` for `1 <= i <= 64`: bit `(i-1) mod 8` of byte `(i-1) div 8` (00_scope.md R10, R104). -/
def idbit (buf : Ident) (i : Nat) : Bool := (identByte buf ((i - 1) / 8)).getLsbD ((i - 1) % 8)

/-- `idbit(buf, i) <- d`. -/
def setIdbit (buf : Ident) (i : Nat) (d : Bool) : Ident :=
  setIdentByte buf ((i - 1) / 8) (setBit (identByte buf ((i - 1) / 8)) ((i - 1) % 8) d)

/-- The bit positions of a search pass in their order: 1 to 64. -/
def positions : List Nat := List.range' 1 64

/-- Byte `k` of a 16-bit register, byte 0 the least significant (R62 (c)). -/
def byteOf16 (v : BitVec 16) (k : Nat) : Byte := v.extractLsb' (8 * k) 8

/-- Byte `k` of a 32-bit register, byte 0 the least significant (R62 (c)). -/
def byteOf32 (v : BitVec 32) (k : Nat) : Byte := v.extractLsb' (8 * k) 8

/-- The value of a result code in `RES` (R96). -/
def ResultCode.code : ResultCode → Byte
  | .ok => 0x00
  | .busFault => 0x01
  | .crcMismatch => 0x02
  | .noCursor => 0x03
  | .spuHeld => 0x04
  | .illegal => 0xFF

end Sys2Proof.Machine
end

