-- ==== Sys2Proof/Machine/Environment.lean ====
section
/-!
DEFINITION. The bus environment (20_memory.md R70, R71): what a sample returns and how the devices of the reference
environment move. The block assumes nothing of it; every rule holds for every environment. Where R71 is silent: DESIGN CHOICE, unsafe,
notes/assumptions/13.
-/
namespace Sys2Proof.Machine

/-- What a sample is for: the presence sample of a reset pulse, or the sample of a read slot. -/
inductive SampleKind where
  | presence
  | readSlot
  deriving DecidableEq, Repr

/-- The state a device takes when its eighth command bit has completed the byte `acc` (R71 (b)). -/
def Device.decodeWire (c : Config) (acc : Byte) (d : Device) : DeviceState :=
  if acc = c.cmdSearch then .search 1 .trueBit
  else if acc = c.cmdAlarm then (if d.alarm then .search 1 .trueBit else .idle)
  else if acc = c.cmdMatch then .matching 1
  else .idle

/-- A device sees the events of `BusReset()` (R71 (a)). -/
def Device.onReset (d : Device) : Device := { d with st := .command 0 0x00#8 }

/-- A device sees a write slot carrying `b` (R71 (b)); a state the rule does not name stays as it is. -/
def Device.onWrite (c : Config) (b : Bool) (d : Device) : Device :=
  match d.st with
  | .command n acc =>
    if n + 1 = 8 then { d with st := d.decodeWire c (acc ||| (zext8 b <<< n)) }
    else { d with st := .command (n + 1) (acc ||| (zext8 b <<< n)) }
  | .search i .choice =>
    if idbit d.rom i = b then
      (if i = 64 then { d with st := .selected } else { d with st := .search (i + 1) .trueBit })
    else { d with st := .idle }
  | .matching i =>
    if idbit d.rom i = b then
      (if i = 64 then { d with st := .selected } else { d with st := .matching (i + 1) })
    else { d with st := .idle }
  | _ => d

/-- The level a device leaves the line at in a read slot: `false` if it pulls low (R71 (c), (d)). -/
def Device.sends (d : Device) : Bool :=
  match d.st with
  | .search i .trueBit => idbit d.rom i
  | .search i .complement => !idbit d.rom i
  | _ => true

/-- A device sees a read slot (R71 (c)). -/
def Device.onRead (d : Device) : Device :=
  match d.st with
  | .search i .trueBit => { d with st := .search i .complement }
  | .search i .complement => { d with st := .search i .choice }
  | _ => d

/-- What the reference environment answers to a sample; `free` is what an unsettled device would add (R71, U12). A line
stuck low answers 0 to every sample. -/
def Reference.answer (k : SampleKind) (free : Bool) (r : Reference) : Bool :=
  if r.stuckLow then false
  else
    match k with
    | .presence => r.devices.isEmpty
    | .readSlot => if r.settled then r.devices.all Device.sends else free

/-- The devices after the slot in which the sample was taken. A reset pulse settles them all. -/
def Reference.afterSample (k : SampleKind) (r : Reference) : Reference :=
  match k with
  | .presence => { r with devices := r.devices.map Device.onReset, settled := true }
  | .readSlot => { r with devices := r.devices.map Device.onRead }

/-- What the environment answers to a sample, given the oracle's answer `free` (R70). -/
def Environment.answer (k : SampleKind) (free : Bool) : Environment → Bool
  | .unconstrained => free
  | .scripted [] => free
  | .scripted (b :: _) => b
  | .reference r => r.answer k free

/-- The environment after a sample. -/
def Environment.afterSample (k : SampleKind) : Environment → Environment
  | .unconstrained => .unconstrained
  | .scripted bs => .scripted bs.tail
  | .reference r => .reference (r.afterSample k)

/-- Whether a sample takes an answer from the oracle. -/
def Environment.drawsFree (k : SampleKind) : Environment → Bool
  | .unconstrained => true
  | .scripted bs => bs.isEmpty
  | .reference r => !r.stuckLow && !r.settled && decide (k = .readSlot)

/-- The environment after a write slot carrying `b`. -/
def Environment.afterWrite (c : Config) (b : Bool) : Environment → Environment
  | .reference r => .reference { r with devices := r.devices.map (Device.onWrite c b) }
  | e => e

/-- The environment after a block reset that cut a command short when `samples` of its line samples had been taken: a
script has lost those answers, the devices of a reference environment are unsettled if any line event had happened
(93_implementation_defined.md U12). -/
def Environment.afterCut (events samples : Nat) : Environment → Environment
  | .unconstrained => .unconstrained
  | .scripted bs => .scripted (bs.drop samples)
  | .reference r => .reference { r with settled := r.settled && decide (events = 0) }

end Sys2Proof.Machine
end

