-- ==== Sys2Proof/Machine/Flags.lean ====
section
/-!
DEFINITION. Every flag of the block. `FLAGS` is a byte the host reads whole (10_state.md R26); `PULL` and `TCTRL` are views
of single bits that live elsewhere (R28, R34).
-/
namespace Sys2Proof.Machine

/-- `FLAGS.BUS_RDY`, bit 0 (R26). -/
def busRdy (f : Byte) : Bool := f.getLsbD 0

/-- `FLAGS.DSP_RDY`, bit 1 (R26). -/
def dspRdy (f : Byte) : Bool := f.getLsbD 1

/-- `FLAGS.DSP2_RDY`, bit 2 (R26). -/
def dsp2Rdy (f : Byte) : Bool := f.getLsbD 2

/-- `FLAGS.BUS_ERR`, bit 3 (R26). -/
def busErr (f : Byte) : Bool := f.getLsbD 3

/-- `FLAGS[3] <- 1`, what a bus fault does (60_exceptions.md R191). -/
def setBusErr (f : Byte) : Byte := f ||| 0x08

/-- `FLAGS[3] <- 0`, what `CLR_ERR` does (45_flags.md R186). -/
def clearBusErr (f : Byte) : Byte := f &&& 0xF7

/-- `FLAGS[2:0] <- FLAGS[2:0] | mask[2:0]`, what `SET_RDY` does; `mask[7:3]` is ignored (R185). -/
def setReady (f mask : Byte) : Byte := f ||| (mask &&& 0x07)

/-- The register `PULL`: bit 0 `SPU`, bit 1 `DQ_LOW`, bits 7:2 zero (R28). -/
def pullByte (spu dqLow : Bool) : Byte := setBit (setBit 0 0 spu) 1 dqLow

/-- The register `TCTRL`: bit 0 `TIE`, bit 1 `TF`, bit 2 `TPEND`, bits 7:3 zero (R34). -/
def tctrlByte (t : TickState) : Byte := setBit (setBit (setBit 0 0 t.tie) 1 t.tf) 2 t.tpend

end Sys2Proof.Machine
end

