-- ==== Sys2Proof/Machine/Ops.lean ====
section
/-!
DEFINITION. The operations every command is made of: the line primitives and the line procedures on the record `Line`
(00_scope.md R10, 40_line_primitives.md R120 to R122, 41_byte_framing.md R130, R131), the ways a command ends
(60_exceptions.md R190 to R195), the tick interrupt's action and the serving of a held tick (44_tick_sync.md R170 to R172),
and the block reset (70_reset_and_hazards.md R220).

A fault of this block is entered by writing `FLAGS` and `RES` and nothing else: it "saves nothing and transfers control
nowhere" (R198), and there is "no return instruction because nothing was entered" (R199).
-/
namespace Sys2Proof.Machine

/-! ### The line -/

/-- `LineLow(t)`: emits `Low(t)`. -/
def lineLow (t : Nat) (l : Line) : Line := { l with dqLow := true, trace := .low t :: l.trace }

/-- `LineRelease(t)`: emits `Rel(t)`. -/
def lineRelease (t : Nat) (l : Line) : Line := { l with dqLow := false, trace := .rel t :: l.trace }

/-- The level a sample finds: low while the block asserts the line (20_memory.md R68, R70), otherwise what the
environment answers. -/
def sampleLevel (k : SampleKind) (l : Line) : Bool :=
  !l.dqLow && l.env.answer k (Config.lineOracle l.trace l.draws)

/-- `LineSample()`: the level, and the line after it; emits `Smp(b)`. -/
def lineSample (k : SampleKind) (l : Line) : Bool × Line :=
  (sampleLevel k l,
   { l with
     trace := .smp (sampleLevel k l) :: l.trace
     env := l.env.afterSample k
     draws := if l.env.drawsFree k then l.draws + 1 else l.draws })

/-- `BusReset()` (R120): `true` for `Presence`. Without presence there is no further wait. -/
def busReset (c : Config) (l : Line) : Bool × Line :=
  let r := lineSample .presence (lineRelease c.tPds (lineLow c.tRstl l))
  if r.1 then (false, r.2) else (true, lineRelease c.tRstr r.2)

/-- `WriteBit(b)` (R121). -/
def writeBit (c : Config) (b : Bool) (l : Line) : Line :=
  let l' := if b then lineRelease c.tW1h (lineLow c.tW1l l) else lineRelease c.tW0h (lineLow c.tW0l l)
  { l' with env := l'.env.afterWrite c b }

/-- `ReadBit()` (R122). -/
def readBit (c : Config) (l : Line) : Bool × Line :=
  let r := lineSample .readSlot (lineRelease c.tRds (lineLow c.tRdl l))
  (r.1, lineRelease c.tRdr r.2)

/-- `WriteByte(v)` (R130): bit 0 goes first. -/
def writeByte (c : Config) (v : Byte) (l : Line) : Line :=
  frameBits.foldl (fun l k => writeBit c (v.getLsbD k) l) l

/-- The read slots for the bits `ks` of a byte of which `v` has been read so far. -/
def readBits (c : Config) : List Nat → Byte → Line → Byte × Line
  | [], v, l => (v, l)
  | k :: ks, v, l =>
    let r := readBit c l
    readBits c ks (setBit v k r.1) r.2

/-- `ReadByte()` (R131): the first bit read becomes bit 0. -/
def readByte (c : Config) (l : Line) : Byte × Line := readBits c frameBits 0x00 l

/-! ### How a command ends -/

/-- `x[RES] <- code`: the last action of every command (10_state.md R24). -/
def endWith (r : ResultCode) (s : State) : State := { s with res := r.code }

/-- `refuse(code)`: `RES` and nothing else (60_exceptions.md R193, R194). -/
def refuse (r : ResultCode) (s : State) : State := endWith r s

/-- `raise BusFault(cause)` (R191): `FLAGS.BUS_ERR <- 1`, then `RES <- 0x01`; the two causes are treated identically. -/
def raiseBusFault (_cause : BusFaultCause) (s : State) : State :=
  endWith .busFault { s with flags := setBusErr s.flags }

/-- `raise CrcMismatch` (R192): `RES <- 0x02`; `BUS_ERR` is not set. -/
def raiseCrcMismatch (s : State) : State := endWith .crcMismatch s

/-- The illegal-opcode outcome (R195); `CMD` has been written before. -/
def raiseIllegal (s : State) : State := refuse .illegal s

/-! ### The tick interrupt -/

/-- `IsrAction()` (44_tick_sync.md R171): count modulo the window, set the flag. It saves nothing (R201). -/
def isrAction (window : Nat) (t : TickState) : TickState :=
  { t with tick := BitVec.ofNat 16 ((t.tick.toNat + 1) % window), tf := true }

/-- `TIMER_EVENT` (R170). -/
def timerEvent (window : Nat) (t : TickState) : TickState :=
  if t.tie then isrAction window t else { t with tpend := true }

/-- The end of a protected section: a held tick is served if `TIE` is now 1 (R172, R175). -/
def serveHeld (window : Nat) (t : TickState) : TickState :=
  if t.tie && t.tpend then isrAction window { t with tpend := false } else t

/-- A host write of `v` to `TCTRL` (R172): `v[7:1]` is ignored. -/
def writeTctrl (window : Nat) (v : Byte) (t : TickState) : TickState :=
  serveHeld window { t with tie := v.getLsbD 0 }

/-! ### Block reset -/

/-- `rst_n` asserted and released (R220): every element of R20 takes its reset value. The configuration, the history, the
environment and what the host still has to do are not the block's and stay (R222). DEDUCED, unsafe: notes/assumptions/10. -/
def blockReset (s : State) : State :=
  { State.resetWith s.cfg with line := { s.line with dqLow := false }, reads := s.reads, inputs := s.inputs }

/-- How many of these line events are samples. -/
def sampleCount (es : List LineEvent) : Nat :=
  es.countP fun e => match e with | .smp _ => true | _ => false

/-- The oldest `n` of the events that `after` has beyond `before`; both have the newest event first. -/
def firstNew (n : Nat) (before after : List LineEvent) : List LineEvent :=
  let new := after.take (after.length - before.length)
  new.drop (new.length - n)

/-- The line when `rst_n` stops a command after `n` of its line events: `before` is the line at the command's start,
`after` what the line would have been at its end. The environment's later choices are numbered on from there. DEDUCED, unsafe:
notes/assumptions/11. -/
def cutLine (n : Nat) (before after : Line) : Line :=
  let kept := firstNew n before.trace after.trace
  { dqLow := false
    trace := kept ++ before.trace
    env := before.env.afterCut kept.length (sampleCount kept)
    draws := after.draws }

/-! ### Nominal time -/

/-- The nominal duration of an event, in microseconds (20_memory.md R69). -/
def eventTime : LineEvent → Nat
  | .low t => t
  | .rel t => t
  | .smp _ => 0
  | .spu _ => 0

/-- The nominal duration of a stretch of the trace. -/
def traceTime (es : List LineEvent) : Nat := (es.map eventTime).sum

end Sys2Proof.Machine
end

