-- ==== Sys2Proof/Machine/Crc.lean ====
section
/-!
DEFINITION. The CRC-8 checker: the functions of 42_crc8.md R140 and R141 and the commands `CRC_STEP` (R142) and `CRC_ID`
(R143). No line event; never refused.
-/
namespace Sys2Proof.Machine

/-- One iteration of the loop of R140 with the polynomial `p`: a logical right shift, then `p` if bit 0 was set. -/
def crcShift (p c : Byte) : Byte := if c.getLsbD 0 then (c >>> 1) ^^^ p else c >>> 1

/-- `Crc8Step(c, d)` with the polynomial `p` (R140, where `p` is 0x8C). -/
def crc8Step (p c d : Byte) : Byte := (crcShift p)^[8] (c ^^^ d)

/-- A fold from a start value `s` (R144 (c)). -/
def crc8From (p s : Byte) (buf : List Byte) : Byte := buf.foldl (crc8Step p) s

/-- `Crc8(buf)` (R141). -/
def crc8 (c : Config) (buf : List Byte) : Byte := crc8From c.crcPoly c.crcInit buf

/-- `Crc8(buf[0..7])` of an eight-byte buffer. -/
def crc8Ident (c : Config) (buf : Ident) : Byte := crc8 c buf.toList

/-- `CRC_STEP`, R142. -/
def execCrcStep (s : State) : Host.Outcome State Fault Refusal :=
  .next (endWith .ok { s with crc := crc8Step s.cfg.crcPoly s.crc s.data })

/-- The acceptance test on a `CRC` just written (R143, R152): accept a fold of zero, otherwise `CRC_MISMATCH`. -/
def acceptIfZero (accept : State → State) (s : State) : State :=
  if s.crc = 0x00#8 then endWith .ok (accept s) else raiseCrcMismatch s

/-- `CRC_ID`, R143. -/
def execCrcId (s : State) : Host.Outcome State Fault Refusal :=
  .next (acceptIfZero (fun s => s) { s with crc := crc8Ident s.cfg s.id })

end Sys2Proof.Machine
end

