-- ==== Sys2Proof/Machine/Transport.lean ====
section
/-!
DEFINITION. The bus transport family: 40_line_primitives.md R123 to R127, 41_byte_framing.md R132 to R134. A command that
asserts the line is refused while the strong pull-up is on, before any line event (60_exceptions.md R194).
-/
namespace Sys2Proof.Machine

/-- The body of a command that asserts the line: refused with `SPU_HELD` while `SPU = 1` (R194). -/
def unlessHeld (s : State) (body : State → State) : State :=
  if s.spu then refuse .spuHeld s else body s

/-- `BUS_RESET` without the refusal (R123). -/
def busResetBody (s : State) : State :=
  let r := busReset s.cfg s.line
  if r.1 then endWith .ok { s with line := r.2 } else raiseBusFault .noPresence { s with line := r.2 }

/-- `BUS_RESET`, R123. -/
def execBusReset (s : State) : Host.Outcome State Fault Refusal := .next (unlessHeld s busResetBody)

/-- `WRITE_BIT`, R124: the slot carries `DATA[0]`. -/
def execWriteBit (s : State) : Host.Outcome State Fault Refusal :=
  .next (unlessHeld s fun s => endWith .ok { s with line := writeBit s.cfg (s.data.getLsbD 0) s.line })

/-- `READ_BIT` without the refusal (R125): all eight bits of `DATA` are overwritten. -/
def readBitBody (s : State) : State :=
  let r := readBit s.cfg s.line
  endWith .ok { s with line := r.2, data := zext8 r.1 }

/-- `READ_BIT`, R125. -/
def execReadBit (s : State) : Host.Outcome State Fault Refusal := .next (unlessHeld s readBitBody)

/-- `WRITE_BYTE`, R132. -/
def execWriteByte (s : State) : Host.Outcome State Fault Refusal :=
  .next (unlessHeld s fun s => endWith .ok { s with line := writeByte s.cfg s.data s.line })

/-- `READ_BYTE` without the refusal (R133). -/
def readByteBody (s : State) : State :=
  let r := readByte s.cfg s.line
  endWith .ok { s with line := r.2, data := r.1 }

/-- `READ_BYTE`, R133. -/
def execReadByte (s : State) : Host.Outcome State Fault Refusal := .next (unlessHeld s readByteBody)

/-- The eight byte frames of an identity, byte 0 first (R134). -/
def writeIdent (c : Config) (buf : Ident) (l : Line) : Line := buf.toList.foldl (fun l v => writeByte c v l) l

/-- `MATCH_ID` without the refusal (R134). -/
def matchIdBody (s : State) : State :=
  let r := busReset s.cfg s.line
  if r.1 then endWith .ok { s with line := writeIdent s.cfg s.id (writeByte s.cfg s.cfg.cmdMatch r.2) }
  else raiseBusFault .noPresence { s with line := r.2 }

/-- `MATCH_ID`, R134. -/
def execMatchId (s : State) : Host.Outcome State Fault Refusal := .next (unlessHeld s matchIdBody)

/-- `SPU <- v`, emitting `Spu(v)` (20_memory.md R69). -/
def setSpu (v : Bool) (s : State) : State :=
  { s with spu := v, line := { s.line with trace := .spu v :: s.line.trace } }

/-- `SPU_ON`, R126. -/
def execSpuOn (s : State) : Host.Outcome State Fault Refusal := .next (endWith .ok (setSpu true s))

/-- `SPU_OFF`, R127. -/
def execSpuOff (s : State) : Host.Outcome State Fault Refusal := .next (endWith .ok (setSpu false s))

end Sys2Proof.Machine
end

