-- ==== Sys2Proof/Machine/Discovery.lean ====
section
/-!
DEFINITION. The discovery engine: creating the cursor (43_discovery.md R150, R151), the decision at a fork (R153, the
resolved reading of 90_conflicts.md C1), one pass in its two variants (R152, R154).
-/
namespace Sys2Proof.Machine

/-- The cursor as both start commands leave it: `FORK = FORK_START`, both buffers zero. -/
def createCursor (s : State) : State :=
  { s with fork := s.cfg.forkStart, id := Ident.zero, prev := Ident.zero }

/-- `SRCH_START`, R150. -/
def execSrchStart (s : State) : Host.Outcome State Fault Refusal :=
  .next (endWith .ok { createCursor s with cntN := 0x00 })

/-- `SRCH_START_A`, R151. -/
def execSrchStartA (s : State) : Host.Outcome State Fault Refusal :=
  .next (endWith .ok { createCursor s with cntA := 0x00 })

/-- `ForkDecision(i, fork, prev, nf) -> (d, nf')` (R153). -/
def forkDecision (i fork : Nat) (prev : Ident) (nf : Nat) : Bool × Nat :=
  if i < fork then
    (idbit prev i, if idbit prev i then nf else i)
  else if i = fork then (true, nf)
  else (false, i)

/-- The bit chosen at position `i` on the reads `a`, `b` (not both 1), with the fork position collected so far (R106,
R152). -/
def chooseBit (i fork : Nat) (prev : Ident) (nf : Nat) (a b : Bool) : Bool × Nat :=
  if a ≠ b then (a, nf) else forkDecision i fork prev nf

/-- How the loop over the bit positions ends: every position answered, with the new fork position; or both reads 1 at
position `i`. -/
inductive LoopEnd where
  | complete (newFork : Nat)
  | noResponse (i : Nat)
  deriving DecidableEq, Repr

/-- What the loop over the bit positions has worked on: how it ended, the line, the working buffer. -/
structure LoopResult where
  ending : LoopEnd
  line : Line
  id : Ident
  deriving DecidableEq, Repr

/-- The loop of R152 over the positions still to visit: a triplet each (R106), the chosen bit written and appended. -/
def searchLoop (c : Config) (fork : Nat) (prev : Ident) : List Nat → Nat → Line → Ident → LoopResult
  | [], nf, l, id => ⟨.complete nf, l, id⟩
  | i :: is, nf, l, id =>
    let ra := readBit c l
    let rb := readBit c ra.2
    if ra.1 && rb.1 then ⟨.noResponse i, rb.2, id⟩
    else
      let ch := chooseBit i fork prev nf ra.1 rb.1
      searchLoop c fork prev is ch.2 (writeBit c ch.1 rb.2) (setIdbit id i ch.1)

/-- The count of a pass's variant goes up by one, modulo 256 (10_state.md R33). -/
def countAccepted (alarm : Bool) (s : State) : State :=
  if alarm then { s with cntA := s.cntA + 1#8 } else { s with cntN := s.cntN + 1#8 }

/-- The end of a pass that answered all 64 positions: the cursor advances whatever the CRC says, then the CRC decides
(R152, R155 (a), (b)). -/
def finishPass (alarm : Bool) (nf : Nat) (s : State) : State :=
  acceptIfZero (countAccepted alarm) { s with prev := s.id, fork := BitVec.ofNat 8 nf, crc := crc8Ident s.cfg s.id }

/-- The wire command byte of a pass's variant (30_encoding.md R105). -/
def searchByte (c : Config) (alarm : Bool) : Byte := if alarm then c.cmdAlarm else c.cmdSearch

/-- A pass after its reset saw presence: the command byte, the cleared working buffer, the loop, its end. -/
def searchBody (alarm : Bool) (s : State) : State :=
  let r := searchLoop s.cfg s.fork.toNat s.prev positions 0 (writeByte s.cfg (searchByte s.cfg alarm) s.line) Ident.zero
  match r.ending with
  | .noResponse i => raiseBusFault (.noResponse i) { s with line := r.line, id := r.id }
  | .complete nf => finishPass alarm nf { s with line := r.line, id := r.id }

/-- `SearchPass(alarm)` after the `SPU_HELD` test: refused without a cursor (60_exceptions.md R193), then the reset. -/
def searchPassBody (alarm : Bool) (s : State) : State :=
  if s.fork = 0x00#8 then refuse .noCursor s
  else
    let r := busReset s.cfg s.line
    if r.1 then searchBody alarm { s with line := r.2 }
    else raiseBusFault .noPresence { s with line := r.2 }

/-- `SearchPass(alarm)` (R152); the order of the refusals is that of 60_exceptions.md R197. -/
def searchPass (alarm : Bool) (s : State) : State := unlessHeld s (searchPassBody alarm)

/-- `SRCH_PASS`, R152. -/
def execSrchPass (s : State) : Host.Outcome State Fault Refusal := .next (searchPass false s)

/-- `SRCH_PASS_A`, R154. -/
def execSrchPassA (s : State) : Host.Outcome State Fault Refusal := .next (searchPass true s)

end Sys2Proof.Machine
end

