-- ==== Sys2Proof/Machine/Readiness.lean ====
section
/-!
DEFINITION. The flags family: `SET_RDY` (45_flags.md R185) and `CLR_ERR` (R186). No command tests a flag (R187).
-/
namespace Sys2Proof.Machine

/-- `SET_RDY`, R185: the readiness bits named by `DATA[2:0]` are set. -/
def execSetRdy (s : State) : Host.Outcome State Fault Refusal :=
  .next (endWith .ok { s with flags := setReady s.flags s.data })

/-- `CLR_ERR`, R186. -/
def execClrErr (s : State) : Host.Outcome State Fault Refusal :=
  .next (endWith .ok { s with flags := clearBusErr s.flags })

end Sys2Proof.Machine
end

