-- ==== Sys2Proof/Machine/Tick.lean ====
section
/-!
DEFINITION. The synchroniser: `SYNC` (44_tick_sync.md R175) in its three stretches, entering the protected section, taking
the tick, leaving the section. A timer pulse that falls inside is placed before or after the command (R176).
-/
namespace Sys2Proof.Machine

/-- Entering the section: the saved `TIE`, and the tick group with `TIE = 0`. -/
def syncEnter (t : TickState) : Bool × TickState := (t.tie, { t with tie := false })

/-- Inside the section: the tick is taken if there is one; `SEC` goes up by one, modulo 2^32, if the counter stands at 0.
The first component says whether a tick was taken. -/
def syncConsume (t : TickState) : Bool × TickState :=
  if t.tf then
    (true, { t with tf := false, snap := t.tick, sec := if t.tick = 0x0000#16 then t.sec + 1#32 else t.sec })
  else (false, t)

/-- Leaving the section: the saved `TIE` is restored, a held tick is served if it is 1. -/
def syncLeave (window : Nat) (saved : Bool) (t : TickState) : TickState := serveHeld window { t with tie := saved }

/-- The whole of `SYNC` on the tick group, with the bit it reports in `DATA`. -/
def syncTicks (window : Nat) (t : TickState) : Bool × TickState :=
  let e := syncEnter t
  let c := syncConsume e.2
  (c.1, syncLeave window e.1 c.2)

/-- `SYNC` on the state. -/
def syncState (s : State) : State :=
  let r := syncTicks s.cfg.tickWindow s.ticks
  endWith .ok { s with ticks := r.2, data := zext8 r.1 }

/-- `SYNC`, R175. -/
def execSync (s : State) : Host.Outcome State Fault Refusal := .next (syncState s)

end Sys2Proof.Machine
end

