-- ==== Sys2Proof/Machine/Dispatch.lean ====
section
/-! DEFINITION. One arm per command (30_encoding.md R92), each one call of its meaning. -/
namespace Sys2Proof.Machine

def exec (i : Instr) (s : State) : Host.Outcome State Fault Refusal :=
  match i with
  | .busReset => Sys2Proof.Machine.execBusReset s
  | .writeBit => Sys2Proof.Machine.execWriteBit s
  | .readBit => Sys2Proof.Machine.execReadBit s
  | .writeByte => Sys2Proof.Machine.execWriteByte s
  | .readByte => Sys2Proof.Machine.execReadByte s
  | .matchId => Sys2Proof.Machine.execMatchId s
  | .spuOn => Sys2Proof.Machine.execSpuOn s
  | .spuOff => Sys2Proof.Machine.execSpuOff s
  | .crcStep => Sys2Proof.Machine.execCrcStep s
  | .crcId => Sys2Proof.Machine.execCrcId s
  | .srchStart => Sys2Proof.Machine.execSrchStart s
  | .srchStartA => Sys2Proof.Machine.execSrchStartA s
  | .srchPass => Sys2Proof.Machine.execSrchPass s
  | .srchPassA => Sys2Proof.Machine.execSrchPassA s
  | .sync => Sys2Proof.Machine.execSync s
  | .setRdy => Sys2Proof.Machine.execSetRdy s
  | .clrErr => Sys2Proof.Machine.execClrErr s

end Sys2Proof.Machine
end

