-- ==== Sys2Proof/Machine/Registers.lean ====
section
/-!
DEFINITION. The register space: the map of 30_encoding.md R91, what a host read returns and what a host write stores
(20_memory.md R61, R65). A write to `CMD` executes a command and stands in Machine/Port.lean.
-/
namespace Sys2Proof.Machine

/-- The space's offsets are 0x00 to 0x2F (R60 (a)). -/
def inBlock (off : Nat) : Bool := decide (off ≤ 0x2F)

/-- The byte a host read of an offset in the space returns (R91); a reserved offset reads as zero (R61). -/
def readReg (s : State) (off : Nat) : Byte :=
  if 0x10 ≤ off ∧ off ≤ 0x17 then identByte s.id (off - 0x10)
  else if 0x18 ≤ off ∧ off ≤ 0x1F then identByte s.prev (off - 0x18)
  else
    match off with
    | 0x00 => s.cmd
    | 0x01 => s.res
    | 0x02 => s.data
    | 0x03 => s.flags
    | 0x04 => pullByte s.spu s.line.dqLow
    | 0x05 => s.crc
    | 0x06 => s.fork
    | 0x07 => s.cntN
    | 0x08 => s.cntA
    | 0x20 => tctrlByte s.ticks
    | 0x21 => byteOf16 s.ticks.tick 0
    | 0x22 => byteOf16 s.ticks.tick 1
    | 0x23 => byteOf16 s.ticks.snap 0
    | 0x24 => byteOf16 s.ticks.snap 1
    | 0x25 => byteOf32 s.ticks.sec 0
    | 0x26 => byteOf32 s.ticks.sec 1
    | 0x27 => byteOf32 s.ticks.sec 2
    | 0x28 => byteOf32 s.ticks.sec 3
    | _ => 0x00

/-- A host write to a register other than `CMD`: `DATA`, `CRC`, `ID[k]` store the byte, `TCTRL` sets `TIE` and may serve a
held tick (44_tick_sync.md R172), every other offset ignores it (R61). -/
def writeReg (off : Nat) (v : Byte) (s : State) : State :=
  if 0x10 ≤ off ∧ off ≤ 0x17 then { s with id := setIdentByte s.id (off - 0x10) v }
  else
    match off with
    | 0x02 => { s with data := v }
    | 0x05 => { s with crc := v }
    | 0x20 => { s with ticks := writeTctrl s.cfg.tickWindow v s.ticks }
    | _ => s

/-- The output ports of R67: `dq_oe` equals `DQ_LOW`, `spu_en` equals `SPU`. -/
def dqOe (s : State) : Bool := s.line.dqLow
def spuEn (s : State) : Bool := s.spu

/-- The offset that a host's bus address reaches, `OWT_BASE` being the address of offset 0 (30_encoding.md R109). -/
def offsetOf (c : Config) (addr : Nat) : Option Nat :=
  if c.owtBase ≤ addr then some (addr - c.owtBase) else none

end Sys2Proof.Machine
end

