-- ==== Sys2Proof/Machine/Port.lean ====
section
/-!
DEFINITION. What one input does to the block: a host access (20_memory.md R61, R63), a timer pulse (44_tick_sync.md R170), a
block reset (70_reset_and_hazards.md R220), a change of the bus environment.
-/
namespace Sys2Proof.Machine

/-- A host write of `v` to `CMD` (10_state.md R23, 20_memory.md R63): the register is written, then the command `v`
encodes runs to completion, or the illegal-opcode outcome (60_exceptions.md R195). -/
def writeCmd (v : Byte) (s : State) : Host.Outcome State Fault Refusal :=
  match decode v with
  | .ok i => exec i { s with cmd := v }
  | .error _ => .next (raiseIllegal { s with cmd := v })

/-- A host write of one byte inside the space. -/
def hostWrite (off : Nat) (v : Byte) (s : State) : Host.Outcome State Fault Refusal :=
  if off = 0x00 then writeCmd v s else .next (writeReg off v s)

/-- A host read of one byte inside the space: the byte goes to the host, the block does not change (R65). -/
def hostRead (off : Nat) (s : State) : State := { s with reads := readReg s off :: s.reads }

/-- A host access: one byte wide and inside the space, or not an access to this block (R61). DEDUCED, safe:
notes/assumptions/14. -/
def hostAccess (a : Access) (s : State) : Host.Outcome State Fault Refusal :=
  match a with
  | .read off w =>
    if w ≠ 1 then .refused (.accessWidth w)
    else if inBlock off then .next (hostRead off s)
    else .refused (.outsideBlock off)
  | .write off w v =>
    if w ≠ 1 then .refused (.accessWidth w)
    else if inBlock off then hostWrite off v s
    else .refused (.outsideBlock off)

/-- A pulse on `timer_tick` (44_tick_sync.md R170). -/
def timerTick (s : State) : State := { s with ticks := timerEvent s.cfg.tickWindow s.ticks }

/-- One event at the ports. -/
def portEvent (e : PortEvent) (s : State) : Host.Outcome State Fault Refusal :=
  match e with
  | .access a => hostAccess a s
  | .timerTick => .next (timerTick s)

/-- A block reset that stops the command `opcode` after `n` line events (R220): the registers are those of a reset and
only the line remembers the command. -/
def resetDuring (opcode : Byte) (n : Nat) (s : State) : Host.Outcome State Fault Refusal :=
  match writeCmd opcode s with
  | .next t => .next (blockReset { s with line := cutLine n s.line t.line })
  | .fault r => .fault r
  | .refused r => .refused r

/-- The bus environment becomes `e`. -/
def setEnvironment (e : Environment) (s : State) : State := { s with line := { s.line with env := e } }

/-- One input of the total order (20_memory.md R72). -/
def deliver (x : Input) (s : State) : Host.Outcome State Fault Refusal :=
  match x with
  | .port e => portEvent e s
  | .blockReset _ => .next (blockReset s)
  | .resetDuring opcode n => resetDuring opcode n s
  | .environment e => .next (setEnvironment e s)

/-- The input by which the host writes `v` to `CMD`. -/
def cmdInput (v : Byte) : Input := .port (.access (.write 0x00 1 v))

end Sys2Proof.Machine
end

