-- ==== Sys2Proof/Machine/Step.lean ====
section
/-!
DEFINITION. One step of the machine: the next input of the total order takes effect (20_memory.md R72). With no input the
block is idle, because it "executes nothing by itself" (70_reset_and_hazards.md R220): DEDUCED, safe, notes/assumptions/6.
-/
namespace Sys2Proof.Machine

def step (s : State) : Host.Outcome State Fault Refusal :=
  match s.inputs with
  | [] => .next s
  | x :: rest => deliver x { s with inputs := rest }

/-- The state in which the very next step is the host's write of the given byte to `CMD`. The block fetches nothing: a
command is the byte the host writes, executed at that write (R75), so placing an instruction is placing that write first
among the inputs. DEDUCED, safe: notes/assumptions/7. -/
def State.withFetchWord (s : State) (nbits w : Nat) : State :=
  { s with inputs := cmdInput (BitVec.ofNat 8 (w % 2 ^ nbits)) :: s.inputs }

end Sys2Proof.Machine
end

