-- ==== Sys2Proof/Machine/HostProgram.lean ====
section
/-!
DEFINITION. The host's side: the notation of 30_encoding.md R98, the pseudo-instructions of R99 and the loop of
43_discovery.md R157. "Each is a fixed host sequence; the block does not know them." A host step that depends on a value
read takes that value as an argument, or, in `probe` and `discover`, reads the register where the rule reads it.
-/
namespace Sys2Proof.Machine

/-- `wr REG, v` at an offset (R98). -/
def wr (off : Nat) (v : Byte) : PortEvent := .access (.write off 1 v)

/-- `rd REG` at an offset (R98). -/
def rd (off : Nat) : PortEvent := .access (.read off 1)

/-- `cmd MNEMONIC` (R98). -/
def cmd (i : Instr) : PortEvent := wr 0x00 (encode i)

/-- `WRITE_BIT b` (R99). -/
def pseudoWriteBit (b : Bool) : List PortEvent := [wr 0x02 (zext8 b), cmd .writeBit]

/-- `WRITE_BYTE v` (R99). -/
def pseudoWriteByte (v : Byte) : List PortEvent := [wr 0x02 v, cmd .writeByte]

/-- `LOAD_ID b0..b7` (R99). -/
def loadId (buf : Ident) : List PortEvent :=
  [wr 0x10 (identByte buf 0), wr 0x11 (identByte buf 1), wr 0x12 (identByte buf 2), wr 0x13 (identByte buf 3),
   wr 0x14 (identByte buf 4), wr 0x15 (identByte buf 5), wr 0x16 (identByte buf 6), wr 0x17 (identByte buf 7)]

/-- `MATCH_ID b0..b7` (R99). -/
def pseudoMatchId (buf : Ident) : List PortEvent := loadId buf ++ [cmd .matchId]

/-- `CRC8 b0..bn` (R99), with the read of its result. -/
def pseudoCrc8 (bytes : List Byte) : List PortEvent :=
  wr 0x05 0x00 :: bytes.flatMap (fun b => [wr 0x02 b, cmd .crcStep]) ++ [rd 0x05]

/-- `CS_ENTER` (R99, 44_tick_sync.md R173). -/
def csEnter : List PortEvent := [rd 0x20, wr 0x20 0x00]

/-- `CS_EXIT s` (R99, 44_tick_sync.md R174): it restores, it does not enable. -/
def csExit (s : Byte) : List PortEvent := [wr 0x20 (s &&& 0x01)]

/-- `READ_TICK` (R99), `s` being what its `CS_ENTER` reads. -/
def readTick (s : Byte) : List PortEvent := csEnter ++ [rd 0x21, rd 0x22] ++ csExit s

/-- The port events of a sequence, one after another. -/
def runPort : List PortEvent → State → Host.Outcome State Fault Refusal
  | [], s => .next s
  | e :: es, s =>
    match portEvent e s with
    | .next t => runPort es t
    | .fault r => .fault r
    | .refused r => .refused r

/-- The state after the host's command `i`. A command never stops the machine, so the second case does not arise. -/
def afterCmd (i : Instr) (s : State) : State :=
  match writeCmd (encode i) s with
  | .next t => t
  | _ => s

/-- `PROBE` (R99): a bus reset, and `BUS_RDY` set if it saw presence. -/
def probe (s : State) : State :=
  let t := afterCmd .busReset s
  if readReg t 0x01 = 0x00#8 then afterCmd .setRdy (writeReg 0x02 0x01 t) else t

/-- How a run ends (43_discovery.md R157). `passLimit` is the bound a host may impose (70_reset_and_hazards.md R235): DESIGN
CHOICE, safe, notes/assumptions/17. -/
inductive RunEnd where
  | fault
  | finished (count : Byte)
  | passLimit
  deriving DecidableEq, Repr

/-- What a run gives: how it ended, how many passes it made, the identities handed over with their indices in the order
of delivery, and the state at its end. -/
structure Run where
  ending : RunEnd
  passes : Nat
  delivered : List (Ident × Byte)
  state : State
  deriving DecidableEq, Repr

/-- The start command of a variant. -/
def startCmd (alarm : Bool) : Instr := if alarm then .srchStartA else .srchStart

/-- The pass command of a variant. -/
def passCmd (alarm : Bool) : Instr := if alarm then .srchPassA else .srchPass

/-- The offset of a variant's count. -/
def countOffset (alarm : Bool) : Nat := if alarm then 0x08 else 0x07

/-- `ID[0..7]` as the host reads them. -/
def readIdent (s : State) : Ident :=
  #v[readReg s 0x10, readReg s 0x11, readReg s 0x12, readReg s 0x13, readReg s 0x14, readReg s 0x15, readReg s 0x16,
     readReg s 0x17]

/-- The passes of R157, at most `n` of them. -/
def discoverLoop (alarm : Bool) : Nat → State → Run
  | 0, s => ⟨.passLimit, 0, [], s⟩
  | n + 1, s =>
    let t := afterCmd (passCmd alarm) s
    if readReg t 0x01 = 0x01#8 then ⟨.fault, 1, [], t⟩
    else
      let handed := if readReg t 0x01 = 0x00#8 then [(readIdent t, readReg t (countOffset alarm) - 1#8)] else []
      if readReg t 0x06 = 0x00#8 then ⟨.finished (readReg t (countOffset alarm)), 1, handed, t⟩
      else
        let r := discoverLoop alarm n t
        { r with passes := r.passes + 1, delivered := handed ++ r.delivered }

/-- `DISCOVER` and `DISCOVER_A` (R157) under a host's bound of `n` passes. -/
def discover (alarm : Bool) (n : Nat) (s : State) : Run := discoverLoop alarm n (afterCmd (startCmd alarm) s)

/-- One timer pulse and the `SYNC` that takes it, the cadence of 70_reset_and_hazards.md R233. -/
def tickThenSync : List PortEvent := [.timerTick, cmd .sync]

end Sys2Proof.Machine
end

