-- ==== Sys2Proof/Safety.lean ====
section
/-!
DEFINITION. What counts as a safe state and a safe run, in the terms the statements use: the invariant of the block, the
shape of the trace, the events of a slot as lists with the newest event first, and tables of the spec that statements
compare the machine with.
-/
namespace Sys2Proof.Machine

/-- The invariant of the block. In order: the configuration is one of this block (00_scope.md R7, R8); `RES` holds a code
of 30_encoding.md R96; `FLAGS[7:4]` are zero (10_state.md R26); `FORK` is 0 to 65 (R30); the line is released between steps
(R27); `TICK` is below the window (R35); `TPEND = 1` implies `TIE = 0` (44_tick_sync.md R177 (h)). -/
abbrev State.Inv (s : State) : Prop :=
  s.cfg.Admitted ∧
  s.res ∈ [0x00#8, 0x01#8, 0x02#8, 0x03#8, 0x04#8, 0xFF#8] ∧
  s.flags &&& 0xF0#8 = 0#8 ∧
  s.fork.toNat ≤ 65 ∧
  s.line.dqLow = false ∧
  s.ticks.tick.toNat < s.cfg.tickWindow ∧
  (s.ticks.tpend = true → s.ticks.tie = false)

/-- Every sample in a trace (newest first) comes directly after a release, so the block never samples while it asserts
the line (20_memory.md R70). -/
def samplesFollowRelease : List LineEvent → Bool
  | [] => true
  | .smp _ :: .rel t :: rest => samplesFollowRelease (.rel t :: rest)
  | .smp _ :: _ => false
  | _ :: rest => samplesFollowRelease rest

/-- The events of a write slot carrying `b`, newest first (30_encoding.md R101). -/
def writeSlotEvents (c : Config) (b : Bool) : List LineEvent :=
  if b then [.rel c.tW1h, .low c.tW1l] else [.rel c.tW0h, .low c.tW0l]

/-- The events of a read slot in which `b` was sampled, newest first (R101). -/
def readSlotEvents (c : Config) (b : Bool) : List LineEvent :=
  [.rel c.tRdr, .smp b, .rel c.tRds, .low c.tRdl]

/-- The events of a byte frame carrying `v` in write slots, newest first: bit 7's slot stands first (R102). -/
def byteFrameEvents (c : Config) (v : Byte) : List LineEvent :=
  frameBits.reverse.flatMap fun k => writeSlotEvents c (v.getLsbD k)

/-- The events of a reset pulse whose presence sample was `p`, newest first (R100). -/
def resetEvents (c : Config) (p : Bool) : List LineEvent :=
  (if p then [] else [.rel c.tRstr]) ++ [.smp p, .rel c.tPds, .low c.tRstl]

/-- The events of a whole triplet with reads `a`, `b` and chosen bit `d`, newest first (R106). -/
def tripletEvents (c : Config) (a b d : Bool) : List LineEvent :=
  writeSlotEvents c d ++ readSlotEvents c b ++ readSlotEvents c a

/-- The commands that assert the line (60_exceptions.md R194). -/
def lineCommands : List Instr :=
  [.busReset, .writeBit, .readBit, .writeByte, .readByte, .matchId, .srchPass, .srchPassA]

/-- The order in which a run delivers identities: the first position at which they differ holds 0 in the earlier one
(43_discovery.md R158). -/
def bitStringLess (a b : Ident) : Prop :=
  ∃ i, 1 ≤ i ∧ i ≤ 64 ∧ (∀ j, 1 ≤ j → j < i → idbit a j = idbit b j) ∧ idbit a i = false ∧ idbit b i = true

/-- A protected section this long loses no tick: it is shorter than one timer period (44_tick_sync.md R180,
70_reset_and_hazards.md R239). -/
def sectionKeepsTicks (c : Config) (microseconds : Nat) : Prop := microseconds < c.tTick

/-- An input that is no access to this block: of another width than one byte, or at an offset above 0x2F (20_memory.md
R61). -/
def Input.foreign : Input → Bool
  | .port (.access (.read off w)) => decide (w ≠ 1) || !inBlock off
  | .port (.access (.write off w _)) => decide (w ≠ 1) || !inBlock off
  | _ => false

/-- No step of a run of `k` steps stops, and the invariant holds throughout. -/
def safeRun : Nat → State → Prop
  | 0, s => s.Inv
  | k + 1, s =>
    s.Inv ∧
    match step s with
    | .next t => safeRun k t
    | _ => False

/-! ### Runs of port events: interrupt actions and reported ticks (44_tick_sync.md R177) -/

/-- Whether the interrupt action runs during a port event: a timer pulse while `TIE = 1` (R170), a write to `TCTRL` that sets
`TIE` while an event is held (R172), a `SYNC` that restores `TIE = 1` while one is held (R175). -/
def runsAction (s : State) : PortEvent → Bool
  | .timerTick => s.ticks.tie
  | .access (.read _ _) => false
  | .access (.write off width v) =>
    decide (width = 1) && s.ticks.tpend &&
      ((decide (off = 0x20) && v.getLsbD 0) || (decide (off = 0x00) && decide (v = 0x40#8) && s.ticks.tie))

/-- How many interrupt actions run during a run of port events. -/
def actionCount : List PortEvent → State → Nat
  | [], _ => 0
  | e :: es, s =>
    match portEvent e s with
    | .next t => (if runsAction s e then 1 else 0) + actionCount es t
    | _ => 0

/-- How many `SYNC`s of a run of port events report a tick in `DATA`. -/
def reportCount : List PortEvent → State → Nat
  | [], _ => 0
  | e :: es, s =>
    match portEvent e s with
    | .next t => (if e = cmd .sync ∧ t.data = 0x01#8 then 1 else 0) + reportCount es t
    | _ => 0

/-- No interrupt action of a run finds the tick before it still to be taken. The action of a `SYNC` that serves a held event
comes after that `SYNC` has taken the tick (R175). -/
def noneOvertaken : List PortEvent → State → Bool
  | [], _ => true
  | e :: es, s =>
    match portEvent e s with
    | .next t => (!runsAction s e || !s.ticks.tf || decide (e = cmd .sync)) && noneOvertaken es t
    | _ => true

/-! ### The spec's tables, written out for the statements -/

/-- The values R95 lists as illegal. -/
def illegalOpcode (v : Nat) : Bool :=
  decide (v ≤ 0x0F) || (decide (0x18 ≤ v) && decide (v ≤ 0x1F)) || (decide (0x22 ≤ v) && decide (v ≤ 0x2F)) ||
  (decide (0x34 ≤ v) && decide (v ≤ 0x3F)) || (decide (0x41 ≤ v) && decide (v ≤ 0x4F)) ||
  (decide (0x52 ≤ v) && decide (v ≤ 0xFF))

/-- The map of R91 as a list: what each of the 48 offsets reads as. -/
def registerTable (s : State) : List (Nat × Byte) :=
  [(0x00, s.cmd), (0x01, s.res), (0x02, s.data), (0x03, s.flags),
   (0x04, (if s.line.dqLow then 2 else 0) + (if s.spu then 1 else 0)), (0x05, s.crc), (0x06, s.fork),
   (0x07, s.cntN), (0x08, s.cntA), (0x09, 0), (0x0A, 0), (0x0B, 0), (0x0C, 0), (0x0D, 0), (0x0E, 0), (0x0F, 0)] ++
  [(0x10, s.id[0]), (0x11, s.id[1]), (0x12, s.id[2]), (0x13, s.id[3]), (0x14, s.id[4]), (0x15, s.id[5]), (0x16, s.id[6]),
   (0x17, s.id[7]), (0x18, s.prev[0]), (0x19, s.prev[1]), (0x1A, s.prev[2]), (0x1B, s.prev[3]), (0x1C, s.prev[4]),
   (0x1D, s.prev[5]), (0x1E, s.prev[6]), (0x1F, s.prev[7])] ++
  [(0x20, (if s.ticks.tpend then 4 else 0) + (if s.ticks.tf then 2 else 0) + (if s.ticks.tie then 1 else 0)),
   (0x21, BitVec.ofNat 8 (s.ticks.tick.toNat % 256)), (0x22, BitVec.ofNat 8 (s.ticks.tick.toNat / 256)),
   (0x23, BitVec.ofNat 8 (s.ticks.snap.toNat % 256)), (0x24, BitVec.ofNat 8 (s.ticks.snap.toNat / 256)),
   (0x25, BitVec.ofNat 8 (s.ticks.sec.toNat % 256)), (0x26, BitVec.ofNat 8 (s.ticks.sec.toNat / 256 % 256)),
   (0x27, BitVec.ofNat 8 (s.ticks.sec.toNat / 65536 % 256)), (0x28, BitVec.ofNat 8 (s.ticks.sec.toNat / 16777216)),
   (0x29, 0), (0x2A, 0), (0x2B, 0), (0x2C, 0), (0x2D, 0), (0x2E, 0), (0x2F, 0)]

/-- The offsets R91 marks as not writable, `TCTRL` and `CMD` apart. -/
def readOnlyOffset (off : Nat) : Bool :=
  decide (off = 0x01) || decide (off = 0x03) || decide (off = 0x04) || (decide (0x06 ≤ off) && decide (off ≤ 0x0F)) ||
  (decide (0x18 ≤ off) && decide (off ≤ 0x1F)) || (decide (0x21 ≤ off) && decide (off ≤ 0x2F))

/-- The offsets whose write only stores the byte (R65): `DATA`, `CRC`, `ID[0..7]`. -/
def storingOffset (off : Nat) : Bool :=
  decide (off = 0x02) || decide (off = 0x05) || (decide (0x10 ≤ off) && decide (off ≤ 0x17))

/-- R41: the elements of R20 and their reset values. -/
def atResetValues (s : State) : Prop :=
  s.cmd = 0x00#8 ∧ s.res = 0x00#8 ∧ s.data = 0x00#8 ∧ s.flags = 0x00#8 ∧ s.spu = false ∧ s.line.dqLow = false ∧
  s.crc = 0x00#8 ∧ s.fork = 0x00#8 ∧ (∀ k, k < 8 → identByte s.id k = 0x00#8) ∧ (∀ k, k < 8 → identByte s.prev k = 0x00#8) ∧
  s.cntN = 0x00#8 ∧ s.cntA = 0x00#8 ∧ s.ticks.tie = false ∧ s.ticks.tf = false ∧ s.ticks.tpend = false ∧
  s.ticks.tick = 0x0000#16 ∧ s.ticks.snap = 0x0000#16 ∧ s.ticks.sec = 0x00000000#32

/-- The bit-serial form of R144 (h): one data bit at a time, `n` bits. -/
def crcSerial : Nat → Byte → Byte → Byte
  | 0, c, _ => c
  | n + 1, c, d =>
    crcSerial n (if c.getLsbD 0 != d.getLsbD 0 then (c >>> 1) ^^^ 0x8C#8 else c >>> 1) (d >>> 1)

/-- The bit chosen at position `i` of a pass, as R106 and R153 give it: the forced value, or at a fork the previous pass's
bit below `fork`, 1 at `fork`, 0 above it. -/
def chosenBit (fork : Nat) (prev : Ident) (i : Nat) (a b : Bool) : Bool :=
  if a ≠ b then a else if i < fork then idbit prev i else if i = fork then true else false

/-- The events of the triplets of positions 1 to `n` of a pass with reads `a`, `b` that chose the bits of `buf`, newest
first. -/
def passEvents (c : Config) (a b : Nat → Bool) (buf : Ident) (n : Nat) : List LineEvent :=
  ((List.range' 1 n).map fun i => tripletEvents c (a i) (b i) (idbit buf i)).reverse.flatten

/-- The result codes each command can end with (R190). -/
def possibleResults : Instr → List Byte
  | .busReset | .matchId => [0x00#8, 0x01#8, 0x04#8]
  | .writeBit | .readBit | .writeByte | .readByte => [0x00#8, 0x04#8]
  | .crcId => [0x00#8, 0x02#8]
  | .srchPass | .srchPassA => [0x00#8, 0x01#8, 0x02#8, 0x03#8, 0x04#8]
  | .spuOn | .spuOff | .crcStep | .srchStart | .srchStartA | .sync | .setRdy | .clrErr => [0x00#8]

end Sys2Proof.Machine
end

