-- ==== Sys2Proof/Certificates/Slice0/Obligations.lean ====
section
/-!
DEFINITION. The statements about the block, for the provers. Each formalises the rule of spec/ that its docstring names; an
equation `exec i s = .next (s with ...)` says the whole frame of the command: every element it does not name is unchanged,
the configuration, the values already read and the inputs still to come among them. Traces have the newest event first.
-/
open Sys2Proof Sys2Proof.Machine

/-! ### Encodings (30_encoding.md section 1) -/

/-- R92 on a command of each family: its word, written out bit by bit with `fam` in bits 7:4 and `fn` in bits 3:0 (R90),
decodes to it. -/
def Obligations.TableWordsDecode : Prop :=
  decode 0b00010101#8 = .ok .matchId ∧ decode 0b00100001#8 = .ok .crcId ∧ decode 0b00110010#8 = .ok .srchPass ∧
  decode 0b00110001#8 = .ok .srchStartA ∧ decode 0b01000000#8 = .ok .sync ∧ decode 0b01010001#8 = .ok .clrErr

/-- R90, R92, R97: decoding an encoded command gives it back, alone and at the head of any bytes; and a byte that decodes to
a command is that command's encoding, so no two bytes decode to one command. -/
def Obligations.DecodeAndEncodeAgree : Prop :=
  (∀ i : Instr, i.wellFormed = true → decode (encode i) = .ok i ∧ ∀ rest, decodeBytes (encode i :: rest) = .ok (i, rest)) ∧
  ∀ (b : Byte) (i : Instr), decode b = .ok i → encode i = b ∧ i.wellFormed = true

/-- R95, R195: exactly the 239 listed values are illegal, each rejected under its own value, and the host's write of one to
`CMD` stores it, sets `RES` to 0xFF and changes nothing else, the line included. -/
def Obligations.IllegalOpcodeOnlySetsResult : Prop :=
  ((List.range 256).countP illegalOpcode = 239) ∧
  (∀ v : Byte, illegalOpcode v.toNat = false → ∃ i, decode v = .ok i) ∧
  (∀ v : Byte, illegalOpcode v.toNat = true → decode v = .error (.illegalOpcode v)) ∧
  ∀ (s : State) (v : Byte) (rest : List Input), s.inputs = cmdInput v :: rest → illegalOpcode v.toNat = true →
    step s = .next { s with inputs := rest, cmd := v, res := 0xFF#8 }

/-! ### Steps (20_memory.md sections 1, 2 and 4) -/

/-- R23, R63: when the next input is the host's write of `v` to `CMD` and `v` decodes to `i`, the step writes `CMD` and is
`exec i`; nothing is added around it but that the input is used up. That the host's accesses stand in a list of inputs is the
model's choice (notes/assumptions/7, 8). -/
def Obligations.StepRunsTheDecodedCommand : Prop :=
  ∀ (s : State) (v : Byte) (i : Instr) (rest : List Input), s.inputs = cmdInput v :: rest → decode v = .ok i →
    step s = exec i { s with inputs := rest, cmd := v }

/-- R61, R65, R91: a one-byte read at each of the 48 offsets completes, gives the host the byte the map places there
(multi-byte registers least significant byte first, reserved offsets zero) and changes nothing in the block. The list of
bytes read is the model's choice (notes/assumptions/9). -/
def Obligations.ReadReturnsTheMappedByte : Prop :=
  ∀ (s : State) (rest : List Input),
    (registerTable s).map Prod.fst = List.range 48 ∧
    ∀ (off : Nat) (b : Byte), (off, b) ∈ registerTable s →
      s.inputs = .port (.access (.read off 1)) :: rest →
      step s = .next { s with inputs := rest, reads := b :: s.reads }

/-- R61: a write at any other offset than a writable one is ignored. -/
def Obligations.WriteToReadOnlyOffsetIsIgnored : Prop :=
  ∀ (s : State) (off : Nat) (v : Byte) (rest : List Input), readOnlyOffset off = true →
    s.inputs = .port (.access (.write off 1 v)) :: rest → step s = .next { s with inputs := rest }

/-- R25, R29, R31, R65: a write to `DATA`, `CRC` or `ID[k]` stores the byte: afterwards that offset reads as the byte
written and every other offset as before, and nothing but the three registers can have changed. -/
def Obligations.WrittenByteReadsBack : Prop :=
  ∀ (s : State) (off : Nat) (v : Byte) (rest : List Input), storingOffset off = true →
    s.inputs = .port (.access (.write off 1 v)) :: rest →
    ∃ d c b, step s = .next { s with inputs := rest, data := d, crc := c, id := b } ∧
      readReg { s with data := d, crc := c, id := b } off = v ∧
      ∀ other, other ≤ 0x2F → other ≠ off →
        readReg { s with data := d, crc := c, id := b } other = readReg s other

/-- R61, U9: an access of another width than one byte, whatever its offset, and a one-byte access at an offset above 0x2F are
refused, each by its name; every other input gives a next state, and so does having no input, so nothing else stops the
machine and no step ends in a fault (R209). That such an access is a refused step, and not no step at all, is the model's
choice (notes/assumptions/14). -/
def Obligations.OnlyForeignAccessesStop : Prop :=
  ∀ s : State,
    (∀ (a : Access) (off w : Nat) (rest : List Input), s.inputs = .port (.access a) :: rest →
      (a = .read off w ∨ ∃ v, a = .write off w v) →
      (w ≠ 1 → step s = .refused (.accessWidth w)) ∧
      (w = 1 → 0x2F < off → step s = .refused (.outsideBlock off))) ∧
    ((∀ (a : Access) (off w : Nat) (rest : List Input), s.inputs = .port (.access a) :: rest →
        (a = .read off w ∨ ∃ v, a = .write off w v) → w = 1 ∧ off ≤ 0x2F) →
      ∃ t, step s = .next t)

/-! ### Reset (70_reset_and_hazards.md section 1) -/

/-- R41: after a block reset, from whatever state and with whatever arriving at the ports while it lasts, and at power-on,
every element holds the value of the table. -/
def Obligations.ResetGivesTheTableOfValues : Prop :=
  atResetValues State.reset ∧
  ∀ (s : State) (during : List PortEvent) (rest : List Input), s.inputs = .blockReset during :: rest →
    ∃ t, step s = .next t ∧ atResetValues t

/-- R222: a block reset emits no pulse and leaves the devices as they are; the parameters, what the host has read and what
is still to come are not the block's either (the model's choice: notes/assumptions/10). -/
def Obligations.ResetLeavesTheLineAlone : Prop :=
  ∀ (s : State) (during : List PortEvent) (rest : List Input), s.inputs = .blockReset during :: rest →
    ∃ t, step s = .next t ∧ t.line = { s.line with dqLow := false } ∧ t.cfg = s.cfg ∧ t.reads = s.reads ∧ t.inputs = rest

/-- R220: a command that a block reset stops is abandoned at the line event it had reached: the oldest `n` of the events
it would have emitted stand in the trace (all of them if there are fewer), and every element is at its reset value, so no
result code was written. That the events are kept whole is the model's choice (notes/assumptions/11). -/
def Obligations.AbandonedCommandLeavesOnlyItsEvents : Prop :=
  ∀ (s : State) (v : Byte) (n : Nat) (rest : List Input), s.inputs = .resetDuring v n :: rest →
    ∃ t u kept lost, step s = .next t ∧ writeCmd v { s with inputs := rest } = .next u ∧ atResetValues t ∧
      t.line.trace = kept ++ s.line.trace ∧ u.line.trace = lost ++ kept ++ s.line.trace ∧
      (kept.length = n ∨ (kept.length < n ∧ lost = []))

/-! ### Bus transport (40_line_primitives.md, 41_byte_framing.md) -/

/-- R123: with the strong pull-up off, `BUS_RESET` emits the reset pulse; it ends in `BUS_FAULT`, with `BUS_ERR` set,
exactly if the presence sample `p` is 1, and in `OK` with `FLAGS` unchanged otherwise; nothing but `RES`, `FLAGS` and the
line can change. -/
def Obligations.BusResetReportsPresence : Prop :=
  ∀ s : State, s.spu = false →
    ∃ p l, exec .busReset s =
        .next { s with line := l, res := if p then 0x01#8 else 0x00#8, flags := if p then s.flags ||| 0x08#8 else s.flags } ∧
      l.trace = resetEvents s.cfg p ++ s.line.trace ∧ l.dqLow = false

/-- R71 (a): in the reference environment the presence sample is 0 exactly if there is a device or the line is stuck low,
so that is when `BUS_RESET` ends in `OK`; and every device then waits for a command byte (on a stuck line too, the model's
choice: notes/assumptions/13). -/
def Obligations.PresenceMeansADevice : Prop :=
  ∀ (s : State) (r : Reference), s.spu = false → s.line.env = .reference r →
    ∃ t r', exec .busReset s = .next t ∧ t.line.env = .reference r' ∧
      (t.res = 0x00#8 ↔ (r.devices ≠ [] ∨ r.stuckLow = true)) ∧
      r'.devices = r.devices.map (fun d => { d with st := .command 0 0#8 }) ∧ r'.settled = true

/-- R124: with the strong pull-up off, `WRITE_BIT` sends one write slot carrying bit 0 of `DATA`, whatever the other bits
are, and ends with `OK`; `DATA` and everything but `RES` and the line is unchanged. -/
def Obligations.WriteBitSendsDataBitZero : Prop :=
  ∀ s : State, s.spu = false →
    ∃ l, exec .writeBit s = .next { s with line := l, res := 0x00#8 } ∧ l.dqLow = false ∧
      l.trace = (if s.data &&& 1#8 = 1#8 then [.rel s.cfg.tW1h, .low s.cfg.tW1l] else [.rel s.cfg.tW0h, .low s.cfg.tW0l])
        ++ s.line.trace

/-- R125: with the strong pull-up off, `READ_BIT` emits one read slot and writes the sampled level to `DATA` as 0x00 or
0x01, in all eight bits. -/
def Obligations.ReadBitDeliversTheSample : Prop :=
  ∀ s : State, s.spu = false →
    ∃ b l, exec .readBit s = .next { s with line := l, data := if b then 0x01#8 else 0x00#8, res := 0x00#8 } ∧
      l.dqLow = false ∧ l.trace = [.rel s.cfg.tRdr, .smp b, .rel s.cfg.tRds, .low s.cfg.tRdl] ++ s.line.trace

/-- R130, R132: with the strong pull-up off, `WRITE_BYTE` sends eight write slots carrying bits 0, 1, ..., 7 of `DATA` in
that order; everything but `RES` and the line is unchanged. -/
def Obligations.WriteByteSendsLowBitFirst : Prop :=
  ∀ s : State, s.spu = false →
    ∃ l, exec .writeByte s = .next { s with line := l, res := 0x00#8 } ∧ l.dqLow = false ∧
      l.trace = ((List.range 8).map fun k => writeSlotEvents s.cfg (s.data.getLsbD k)).reverse.flatten ++ s.line.trace

/-- R131, R133: with the strong pull-up off, `READ_BYTE` emits eight read slots and the sample of the `k`-th of them is bit
`k` of `DATA` afterwards. -/
def Obligations.ReadByteAssemblesLowBitFirst : Prop :=
  ∀ s : State, s.spu = false →
    ∃ v l, exec .readByte s = .next { s with line := l, data := v, res := 0x00#8 } ∧ l.dqLow = false ∧
      l.trace = ((List.range 8).map fun k => readSlotEvents s.cfg (v.getLsbD k)).reverse.flatten ++ s.line.trace

/-- R134: with the strong pull-up off, `MATCH_ID` emits the reset pulse; without presence it ends in `BUS_FAULT` and sends
nothing; with presence it sends the frames of `CMD_MATCH` and of `ID[0]` to `ID[7]` in that order and ends in `OK`. `ID`
and everything but `RES`, `FLAGS` and the line is unchanged. -/
def Obligations.MatchSendsTheIdentity : Prop :=
  ∀ s : State, s.spu = false →
    ∃ p l, exec .matchId s =
        .next { s with line := l, res := if p then 0x01#8 else 0x00#8, flags := if p then s.flags ||| 0x08#8 else s.flags } ∧
      l.dqLow = false ∧
      l.trace = (if p then [] else (s.cfg.cmdMatch :: s.id.toList).reverse.flatMap (byteFrameEvents s.cfg))
        ++ resetEvents s.cfg p ++ s.line.trace

/-- R71 (b) with R134: in the reference environment with a device present, a line that is not stuck and a match byte unlike
the search bytes, `MATCH_ID` ends in `OK` and leaves selected exactly the devices whose identity stands in `ID`, every
other device idle. -/
def Obligations.MatchSelectsExactlyTheNamedDevices : Prop :=
  ∀ (s : State) (r : Reference), s.spu = false → s.line.env = .reference r → r.devices ≠ [] → r.stuckLow = false →
    s.cfg.cmdMatch ≠ s.cfg.cmdSearch → s.cfg.cmdMatch ≠ s.cfg.cmdAlarm →
    ∃ t r', exec .matchId s = .next t ∧ t.res = 0x00#8 ∧ t.line.env = .reference r' ∧
      r'.devices = r.devices.map (fun d => { d with st := if d.rom = s.id then .selected else .idle })

/-- R126, R127: `SPU_ON` and `SPU_OFF` set `SPU`, emit `Spu` and end with `OK` in every state; with the line released the
host reads `PULL` as 0x01 and as 0x00 afterwards. -/
def Obligations.StrongPullUpSwitches : Prop :=
  ∀ s : State,
    exec .spuOn s =
      .next { s with spu := true, res := 0x00#8, line := { s.line with trace := .spu true :: s.line.trace } } ∧
    exec .spuOff s =
      .next { s with spu := false, res := 0x00#8, line := { s.line with trace := .spu false :: s.line.trace } } ∧
    (s.line.dqLow = false →
      (∀ t, exec .spuOn s = .next t → readReg t 0x04 = 0x01#8) ∧ (∀ t, exec .spuOff s = .next t → readReg t 0x04 = 0x00#8))

/-- R194: while `SPU = 1` each of the eight commands that assert the line sets `RES` to 0x04 and changes nothing else, the
line included; no other command ever ends with that code. -/
def Obligations.LineCommandsAreHeldOffByThePullUp : Prop :=
  (∀ (i : Instr) (s : State), i ∈ lineCommands → s.spu = true → exec i s = .next { s with res := 0x04#8 }) ∧
  ∀ (i : Instr) (s : State), i ∉ lineCommands → ∃ t, exec i s = .next t ∧ t.res ≠ 0x04#8

/-- R128: every line command leaves the line released, on every path: the fault paths, and the refusals too, which leave the
line as released as it was. -/
def Obligations.LineCommandsLeaveTheLineReleased : Prop :=
  ∀ (i : Instr) (s : State), i ∈ lineCommands →
    (s.line.dqLow = false ∨ (s.spu = false ∧ (i = .srchPass ∨ i = .srchPassA → s.fork ≠ 0#8))) →
    ∃ t, exec i s = .next t ∧ t.line.dqLow = false

/-- R194, R230: whatever arrives at the ports while the strong pull-up is on, the block does not assert the line: the only
line events of that step are switchings of the pull-up. -/
def Obligations.NoLowWhileThePullUpIsOn : Prop :=
  ∀ (s t : State) (e : PortEvent) (rest : List Input), s.inputs = .port e :: rest → s.spu = true → step s = .next t →
    ∃ new, t.line.trace = new ++ s.line.trace ∧ ∀ x ∈ new, ∃ v, x = .spu v

/-! ### CRC-8 (42_crc8.md) -/

/-- R142: `CRC_STEP` folds `DATA` into `CRC` and changes nothing else but `RES`, in every state, also while `SPU = 1`; the
polynomial is `CRC_POLY`, 0x8C in every configuration of this block (R140). -/
def Obligations.CrcStepFoldsData : Prop :=
  ∀ s : State,
    exec .crcStep s = .next { s with crc := crc8Step s.cfg.crcPoly s.crc s.data, res := 0x00#8 } ∧
    (s.cfg.Admitted → exec .crcStep s = .next { s with crc := crc8Step 0x8C#8 s.crc s.data, res := 0x00#8 })

/-- R143: `CRC_ID` leaves in `CRC` the fold of `ID[0]` to `ID[7]` from the start value and accepts exactly a fold of zero; the
old `CRC` is not used and `FLAGS` is unchanged. In every configuration of this block the start value is 0x00 and the
polynomial 0x8C (R140, R141). -/
def Obligations.CrcIdAcceptsExactlyZeroFold : Prop :=
  ∀ s : State, ∃ f,
    f = [s.id[0], s.id[1], s.id[2], s.id[3], s.id[4], s.id[5], s.id[6], s.id[7]].foldl (crc8Step s.cfg.crcPoly) s.cfg.crcInit ∧
    exec .crcId s = .next { s with crc := f, res := if f = 0x00#8 then 0x00#8 else 0x02#8 } ∧
    (s.cfg.Admitted → f = crc8Step 0x8C#8 (crc8Step 0x8C#8 (crc8Step 0x8C#8 (crc8Step 0x8C#8 (crc8Step 0x8C#8 (crc8Step 0x8C#8
      (crc8Step 0x8C#8 (crc8Step 0x8C#8 0x00#8 s.id[0]) s.id[1]) s.id[2]) s.id[3]) s.id[4]) s.id[5]) s.id[6]) s.id[7])

/-- R144 (h): the shift-register form gives the same value as R140 for all 65536 inputs. -/
def Obligations.BitSerialCrcAgrees : Prop :=
  ∀ c d : Byte, crcSerial 8 c d = crc8Step 0x8C#8 c d

/-- R144 (a), (b): the running value and the data enter only through their exclusive-or, and a step is linear over it; for
every polynomial `p`, 0x8C among them. -/
def Obligations.CrcStepIsLinear : Prop :=
  ∀ p a b c d : Byte,
    crc8Step p c d = crc8Step p 0#8 (c ^^^ d) ∧ crc8Step p (a ^^^ b) (c ^^^ d) = crc8Step p a c ^^^ crc8Step p b d

/-- R144 (c): a fold from a start value differs from the fold from zero by the fold of the start value over as many zero
bytes; and (R141) two start values that give one fold are equal. -/
def Obligations.CrcStartValueSeparates : Prop :=
  ∀ (s s' : Byte) (buf : List Byte),
    crc8From 0x8C#8 s buf = crc8From 0x8C#8 0x00#8 buf ^^^ crc8From 0x8C#8 s (List.replicate buf.length 0#8) ∧
    (crc8From 0x8C#8 s buf = crc8From 0x8C#8 s' buf → s = s')

/-- R144 (d), (e), (f): after any bytes exactly one next byte brings the fold to zero, and it is the fold of those bytes;
whatever the start value of the fold. -/
def Obligations.ExactlyOneChecksumByte : Prop :=
  ∀ (c : Config) (buf : List Byte) (last : Byte), c.crcPoly = 0x8C#8 → (crc8 c (buf ++ [last]) = 0#8 ↔ last = crc8 c buf)

/-- R144 (g), the source's property S1: changing exactly one of the 64 bits of a buffer that folds to zero gives a buffer
that does not; whatever the start value of the fold. -/
def Obligations.SingleBitErrorIsCaught : Prop :=
  ∀ (c : Config) (buf : Ident) (i : Nat), c.crcPoly = 0x8C#8 → crc8Ident c buf = 0#8 → 1 ≤ i → i ≤ 64 →
    crc8Ident c (setIdbit buf i (!idbit buf i)) ≠ 0#8

/-- R99: `LOAD_ID` stores the eight bytes and nothing else; the read that ends `CRC8 b0..bn` gives the host the fold of the
bytes from zero, for any number of them, and the line is untouched. -/
def Obligations.HostSequencesLoadAndFold : Prop :=
  (∀ (s : State) (buf : Ident), runPort (loadId buf) s = .next { s with id := buf }) ∧
  ∀ (s : State) (bytes : List Byte), ∃ t, runPort (pseudoCrc8 bytes) s = .next t ∧
    t.reads = crc8From s.cfg.crcPoly 0x00#8 bytes :: s.reads ∧ t.line = s.line

/-- R99, R223 (b): with the strong pull-up off, `PROBE` emits one reset pulse and, exactly if that saw presence, sets
`BUS_RDY` from 0x01 in `DATA` and ends with `OK`; otherwise `BUS_ERR` is set, `BUS_RDY` and `DATA` stay and `RES` is 0x01. -/
def Obligations.ProbeSetsBusReadyOnPresence : Prop :=
  ∀ s : State, s.spu = false →
    ∃ p : Bool, (probe s).line.trace = resetEvents s.cfg p ++ s.line.trace ∧
      (probe s).flags = (if p then s.flags ||| 0x08#8 else s.flags ||| 0x01#8) ∧
      (probe s).data = (if p then s.data else 0x01#8) ∧ (probe s).res = if p then 0x01#8 else 0x00#8

/-! ### Discovery (43_discovery.md) -/

/-- R150, R151: the start commands create the cursor and clear the count of their own variant, in every state; the other
count, `CRC`, `DATA`, `FLAGS` and the line are unchanged. `FORK` becomes `FORK_START`, 65 in every configuration of this
block. -/
def Obligations.StartCommandsCreateTheCursor : Prop :=
  ∀ s : State, ∃ z : Ident, (∀ k, k < 8 → identByte z k = 0x00#8) ∧
    exec .srchStart s = .next { s with fork := s.cfg.forkStart, id := z, prev := z, cntN := 0x00#8, res := 0x00#8 } ∧
    exec .srchStartA s = .next { s with fork := s.cfg.forkStart, id := z, prev := z, cntA := 0x00#8, res := 0x00#8 } ∧
    (s.cfg.Admitted → s.cfg.forkStart = 65#8)

/-- R193: with `FORK = 0` and the strong pull-up off both pass commands set `RES` to 0x03 and change nothing else; `FORK` is 0
after reset. -/
def Obligations.PassWithoutCursorIsRefused : Prop :=
  State.reset.fork = 0#8 ∧
  ∀ s : State, s.spu = false → s.fork = 0#8 →
    exec .srchPass s = .next { s with res := 0x03#8 } ∧ exec .srchPassA s = .next { s with res := 0x03#8 }

/-- R152, R154, R153, R155: every way a pass that is not refused can end, for both variants. (1) No presence: the reset
pulse and nothing else; `BUS_ERR` set, the cursor untouched. (2) Both reads 1 at a position `i`: the complete triplets of
the positions below `i`, then two read slots; `ID` holds the chosen bits below `i` and zeros from `i` on; `BUS_ERR` set,
`PREV`, `FORK`, `CRC` and the counts unchanged. (3) All 64 positions: `ID` holds the chosen bits, `PREV` is a copy, `FORK` is
the highest position at which a fork was met and 0 chosen, or 0, `CRC` is the fold; the pass is accepted, and its variant's
count goes up by one, exactly if the fold is zero. Nothing else changes. -/
def Obligations.SearchPassEndsInOneOfThreeWays : Prop :=
  ∀ (s : State) (alarm : Bool), s.spu = false → s.fork ≠ 0#8 →
    ∃ l, l.dqLow = false ∧
    ((exec (passCmd alarm) s = .next { s with line := l, res := 0x01#8, flags := s.flags ||| 0x08#8 } ∧
        l.trace = resetEvents s.cfg true ++ s.line.trace) ∨
     (∃ (i : Nat) (a b : Nat → Bool) (buf : Ident), 1 ≤ i ∧ i ≤ 64 ∧
        exec (passCmd alarm) s = .next { s with line := l, res := 0x01#8, flags := s.flags ||| 0x08#8, id := buf } ∧
        l.trace = readSlotEvents s.cfg true ++ readSlotEvents s.cfg true ++ passEvents s.cfg a b buf (i - 1) ++
          byteFrameEvents s.cfg (if alarm then s.cfg.cmdAlarm else s.cfg.cmdSearch) ++ resetEvents s.cfg false ++
          s.line.trace ∧
        (∀ j, 1 ≤ j → j < i → (a j && b j) = false ∧ idbit buf j = chosenBit s.fork.toNat s.prev j (a j) (b j)) ∧
        (∀ j, i ≤ j → j ≤ 64 → idbit buf j = false)) ∨
     (∃ (a b : Nat → Bool) (buf : Ident) (f crc : Byte),
        exec (passCmd alarm) s = .next { s with
          line := l, id := buf, prev := buf, fork := f, crc := crc, res := if crc = 0x00#8 then 0x00#8 else 0x02#8,
          cntN := if crc = 0x00#8 ∧ alarm = false then s.cntN + 1 else s.cntN,
          cntA := if crc = 0x00#8 ∧ alarm = true then s.cntA + 1 else s.cntA } ∧
        crc = crc8Ident s.cfg buf ∧
        l.trace = passEvents s.cfg a b buf 64 ++
          byteFrameEvents s.cfg (if alarm then s.cfg.cmdAlarm else s.cfg.cmdSearch) ++ resetEvents s.cfg false ++
          s.line.trace ∧
        (∀ j, 1 ≤ j → j ≤ 64 → (a j && b j) = false ∧ idbit buf j = chosenBit s.fork.toNat s.prev j (a j) (b j)) ∧
        (∀ j, 1 ≤ j → j ≤ 64 → a j = false → b j = false → idbit buf j = false → j ≤ f.toNat) ∧
        (f = 0#8 ∨ (1 ≤ f.toNat ∧ f.toNat ≤ 64 ∧ a f.toNat = false ∧ b f.toNat = false ∧ idbit buf f.toNat = false))))

/-- R159: a pass reads none of `ID`, `DATA`, `CRC`: whatever the host writes there between two passes, the pass emits the same
events, ends the same way and leaves the same cursor, and a pass that completes leaves the same identity and fold. -/
def Obligations.PassDependsOnlyOnTheCursor : Prop :=
  ∀ (s : State) (alarm : Bool) (buf : Ident) (d c : Byte), s.spu = false → s.fork ≠ 0#8 →
    ∃ t u, exec (passCmd alarm) s = .next t ∧ exec (passCmd alarm) { s with id := buf, data := d, crc := c } = .next u ∧
      u.line = t.line ∧ u.res = t.res ∧ u.fork = t.fork ∧ u.prev = t.prev ∧ u.flags = t.flags ∧ u.cntN = t.cntN ∧
      u.cntA = t.cntA ∧ (t.res ≠ 0x01#8 → u.id = t.id ∧ u.crc = t.crc)

/-- R160 (d): on a line stuck low every triplet is a fork: a pass repeats the previous bits below `FORK`, takes 1 at it and 0
above it, and remembers the highest position where it took 0. With `FORK = 65` and a cleared `PREV`, as the start commands
leave them, this is the all-zero identity, accepted, with `FORK = 64`, a fold from zero being zero (R145). -/
def Obligations.StuckLowLineWalksTheBitStrings : Prop :=
  ∀ (s : State) (r : Reference) (alarm : Bool), s.spu = false → s.line.env = .reference r → r.stuckLow = true →
    s.fork ≠ 0#8 →
    ∃ t, exec (passCmd alarm) s = .next t ∧ t.res ≠ 0x01#8 ∧ t.flags = s.flags ∧
      (∀ j, 1 ≤ j → j ≤ 64 → idbit t.id j =
        if j < s.fork.toNat then idbit s.prev j else decide (j = s.fork.toNat)) ∧
      (∀ j, 1 ≤ j → j ≤ 64 → idbit t.id j = false → j ≤ t.fork.toNat) ∧
      (t.fork = 0#8 ∨ (1 ≤ t.fork.toNat ∧ t.fork.toNat ≤ 64 ∧ idbit t.id t.fork.toNat = false)) ∧
      (s.fork = 65#8 → s.prev = Ident.zero → s.cfg.crcInit = 0x00#8 →
        t.id = Ident.zero ∧ t.fork = 64#8 ∧ t.crc = 0x00#8 ∧ t.res = 0x00#8)

/-- R154: devices that are present but not in alarm answer the reset and then take no part: if none is in alarm, the alarm
pass ends in `BUS_FAULT` at the first triplet, with `BUS_ERR` set, the identity buffer cleared and the cursor and the counts
unchanged. The alarm byte must differ from the search byte. -/
def Obligations.AlarmPassWithNobodyInAlarmFaults : Prop :=
  ∀ (s : State) (r : Reference), s.spu = false → s.fork ≠ 0#8 → s.line.env = .reference r → r.stuckLow = false →
    r.devices ≠ [] → (∀ d ∈ r.devices, d.alarm = false) → s.cfg.cmdAlarm ≠ s.cfg.cmdSearch →
    ∃ l, exec .srchPassA s =
        .next { s with line := l, res := 0x01#8, flags := s.flags ||| 0x08#8, id := Ident.zero } ∧
      l.trace = readSlotEvents s.cfg true ++ readSlotEvents s.cfg true ++ byteFrameEvents s.cfg s.cfg.cmdAlarm ++
        resetEvents s.cfg false ++ s.line.trace

/-- R158: in the reference environment with K >= 1 devices whose identities are pairwise different and all fold to zero,
`DISCOVER` executes exactly K passes, each accepted; it delivers each identity once, in ascending order of the bit string;
then `FORK = 0` and `CNT_N = K mod 256`. With no device it executes one pass, which faults in its reset, and delivers
nothing. `FORK_START` is 65. The host's bound of K passes is enough and any larger bound gives the same run; that the loop
has a bound is the model's choice (notes/assumptions/17), and that a search byte equal to another wire byte still starts a
search is too (notes/assumptions/13). -/
def Obligations.DiscoveryFindsEveryDeviceOnce : Prop :=
  (∀ (s : State) (ds : List Device) (settled : Bool) (n : Nat), s.spu = false → ds ≠ [] →
    s.line.env = .reference ⟨ds, false, settled⟩ → (ds.map Device.rom).Nodup → (∀ d ∈ ds, crc8Ident s.cfg d.rom = 0#8) →
    s.cfg.forkStart = 65#8 → ds.length ≤ n →
    ∃ r, discover false n s = r ∧ r.ending = .finished (BitVec.ofNat 8 ds.length) ∧ r.passes = ds.length ∧
      r.delivered.length = ds.length ∧ (r.delivered.map Prod.fst).Perm (ds.map Device.rom) ∧
      (r.delivered.map Prod.fst).Pairwise bitStringLess ∧
      r.delivered.map Prod.snd = (List.range ds.length).map (BitVec.ofNat 8) ∧ r.state.fork = 0#8 ∧
      r.state.cntN = BitVec.ofNat 8 ds.length ∧ r.state.flags = s.flags) ∧
  (∀ (s : State) (settled : Bool) (n : Nat), s.spu = false → s.line.env = .reference ⟨[], false, settled⟩ →
    s.cfg.forkStart = 65#8 → 1 ≤ n →
    ∃ r, discover false n s = r ∧ r.ending = .fault ∧ r.passes = 1 ∧ r.delivered = [] ∧
      r.state.line.trace = resetEvents s.cfg true ++ s.line.trace)

/-! ### Ticks (44_tick_sync.md) -/

/-- R170, R171: a pulse on `timer_tick` counts modulo the window and sets `TF` while `TIE = 1`, and only sets `TPEND` while
`TIE = 0`; it changes nothing else. -/
def Obligations.TimerEventCountsOrIsHeld : Prop :=
  ∀ (s : State) (rest : List Input), s.inputs = .port .timerTick :: rest →
    step s = .next { s with inputs := rest, ticks :=
      if s.ticks.tie then
        { s.ticks with tick := BitVec.ofNat 16 ((s.ticks.tick.toNat + 1) % s.cfg.tickWindow), tf := true }
      else { s.ticks with tpend := true } }

/-- R172: a write to `TCTRL` sets `TIE` from bit 0 and ignores the other bits; if that leaves `TIE = 1` with a held event, the
event is served in the same step. -/
def Obligations.TctrlWriteServesAHeldTick : Prop :=
  ∀ (s : State) (v : Byte) (rest : List Input), s.inputs = .port (.access (.write 0x20 1 v)) :: rest →
    step s = .next { s with inputs := rest, ticks :=
      if v &&& 1#8 = 1#8 ∧ s.ticks.tpend = true then
        { s.ticks with tie := true, tpend := false, tf := true
                       tick := BitVec.ofNat 16 ((s.ticks.tick.toNat + 1) % s.cfg.tickWindow) }
      else { s.ticks with tie := decide (v &&& 1#8 = 1#8) } }

/-- R175: `SYNC` in every state. With `TF = 1` it takes the tick: `TF` cleared, `SNAP` a copy of `TICK`, `SEC` up by one modulo
2^32 if `TICK = 0`, `DATA = 0x01`; with `TF = 0` it reports 0x00 in `DATA`. `TIE` is restored, and a held event is served if it
is 1. Nothing else changes but `RES`. -/
def Obligations.SyncTakesTheTick : Prop :=
  ∀ s : State, ∃ u : TickState,
    u = { s.ticks with
          tf := false
          snap := if s.ticks.tf then s.ticks.tick else s.ticks.snap
          sec := if s.ticks.tf = true ∧ s.ticks.tick = 0#16 then s.ticks.sec + 1#32 else s.ticks.sec } ∧
    exec .sync s = .next { s with
      data := if s.ticks.tf then 0x01#8 else 0x00#8
      res := 0x00#8
      ticks :=
        if s.ticks.tie = true ∧ s.ticks.tpend = true then
          { u with tpend := false, tf := true, tick := BitVec.ofNat 16 ((s.ticks.tick.toNat + 1) % s.cfg.tickWindow) }
        else u }

/-- R176: a pulse that falls inside `SYNC`, before or after the test of `TF`, leaves the tick state that the pulse leaves
directly after a `SYNC` in whose middle nothing happened, and the tick reported is the same. -/
def Obligations.PulseInsideSyncIsOrderedAfterIt : Prop :=
  ∀ (w : Nat) (t : TickState), (t.tpend = true → t.tie = false) →
    syncLeave w (syncEnter t).1 (timerEvent w (syncConsume (syncEnter t).2).2) = timerEvent w (syncTicks w t).2 ∧
    syncLeave w (syncEnter t).1 (syncConsume (timerEvent w (syncEnter t).2)).2 = timerEvent w (syncTicks w t).2 ∧
    (syncConsume (timerEvent w (syncEnter t).2)).1 = (syncTicks w t).1

/-- R177 (c): `TICK_WINDOW` executions of the interrupt action return `TICK` to the value it had; fewer than that, and more
than none, do not. -/
def Obligations.WindowOfTicksReturnsTheCounter : Prop :=
  ∀ (c : Config) (t : TickState), c.Admitted → t.tick.toNat < c.tickWindow →
    ((isrAction c.tickWindow)^[c.tickWindow] t).tick = t.tick ∧
    ∀ k, 0 < k → k < c.tickWindow → ((isrAction c.tickWindow)^[k] t).tick ≠ t.tick

/-- R177 (d), the source's property S6: in a run of port events in which no interrupt action finds the tick before it still
to be taken, and the last tick is taken too, with any number of further `SYNC`s, sections with held events, and other
accesses and commands between: over one window of interrupt actions the counter returns to its value, `SEC` goes up by
exactly one, and exactly as many `SYNC`s report a tick. -/
def Obligations.OneSecondPerWindowWhenEveryTickIsTaken : Prop :=
  ∀ (s t : State) (es : List PortEvent), s.cfg.Admitted → s.ticks.tick.toNat < s.cfg.tickWindow → s.ticks.tf = false →
    runPort es s = .next t → noneOvertaken es s = true → t.ticks.tf = false → actionCount es s = s.cfg.tickWindow →
    t.ticks.tick = s.ticks.tick ∧ t.ticks.sec = s.ticks.sec + 1#32 ∧ reportCount es s = s.cfg.tickWindow

/-- R177 (f): between two interrupt actions at most one `SYNC` reports a tick. In a run of port events during which no
interrupt action runs, timer pulses that are held in a section among them, a report uses up the tick that was there to
take; so the run reports at most one, also together with the event after it, in which the next action may run (a `SYNC`
that serves a held event takes its tick first). A `SYNC` that finds nothing to take reports 0x00, and one that serves no
held event leaves nothing to take. -/
def Obligations.EachTickIsTakenAtMostOnce : Prop :=
  (∀ s : State, s.ticks.tpend = false → ∃ t, exec .sync s = .next t ∧ t.ticks.tf = false ∧ t.ticks.tpend = false) ∧
  ∀ (s t : State) (es : List PortEvent), runPort es s = .next t → actionCount es s = 0 →
    reportCount es s + t.ticks.tf.toNat = s.ticks.tf.toNat ∧
    (∀ e : PortEvent, reportCount (es ++ [e]) s ≤ 1) ∧
    (t.ticks.tf = false → ∃ u, exec .sync t = .next u ∧ u.data = 0x00#8)

/-- R73: while `TIE = 0`, whatever input comes next, unless the host sets `TIE` or the block is reset, `TICK` does not change
and `TF` is not set; so reads made in a protected section see one tick state. -/
def Obligations.ProtectedSectionHoldsTheCounterStill : Prop :=
  ∀ (s t : State) (x : Input) (rest : List Input), s.inputs = x :: rest → s.ticks.tie = false → step s = .next t →
    (∀ v, x = .port (.access (.write 0x20 1 v)) → v &&& 1#8 = 0#8) → (∀ d, x ≠ .blockReset d) →
    (∀ v n, x ≠ .resetDuring v n) →
    t.ticks.tie = false ∧ t.ticks.tick = s.ticks.tick ∧ (t.ticks.tf = true → s.ticks.tf = true)

/-- R173, R174, R178: `READ_TICK`, with any number of timer pulses in each of the gaps between its accesses, gives the host the
two halves of one value, the one `TICK` held when the write opened the section: `n₀` pulses after the value the host found
at the read of `TCTRL`. `CS_EXIT` restores `TIE` as it was. The list of bytes read is the model's choice
(notes/assumptions/9). -/
def Obligations.ReadTickIsNeverTorn : Prop :=
  ∀ (s : State) (n₀ n₁ n₂ n₃ : Nat), ∃ t lo hi,
    runPort ([rd 0x20] ++ List.replicate n₀ .timerTick ++ [wr 0x20 0x00] ++ List.replicate n₁ .timerTick ++ [rd 0x21] ++
      List.replicate n₂ .timerTick ++ [rd 0x22] ++ List.replicate n₃ .timerTick ++ csExit (readReg s 0x20)) s = .next t ∧
    t.reads = hi :: lo :: readReg s 0x20 :: s.reads ∧
    hi.toNat * 256 + lo.toNat = ((timerEvent s.cfg.tickWindow)^[n₀] s.ticks).tick.toNat ∧
    t.ticks.tie = s.ticks.tie

/-- R72, R201: a timer pulse and a command other than `SYNC` touch disjoint state, so their two orders are
indistinguishable. -/
def Obligations.TimerPulseCommutesWithCommands : Prop :=
  ∀ (i : Instr) (s : State), i ≠ .sync →
    ∃ t, exec i s = .next t ∧ exec i (timerTick s) = .next (timerTick t)

/-! ### Flags (45_flags.md) and whole-machine rules -/

/-- R185, R186: `SET_RDY` sets the readiness bits that `DATA[2:0]` names and leaves every other bit of `FLAGS`, `BUS_ERR` among
them; `CLR_ERR` clears `BUS_ERR` and leaves every other bit. Nothing else changes but `RES`. -/
def Obligations.FlagCommandsWriteOnlyTheirBits : Prop :=
  ∀ s : State,
    (∃ f, exec .setRdy s = .next { s with flags := f, res := 0x00#8 } ∧
      ∀ k, k < 8 → f.getLsbD k = (s.flags.getLsbD k || (decide (k < 3) && s.data.getLsbD k))) ∧
    ∃ f, exec .clrErr s = .next { s with flags := f, res := 0x00#8 } ∧
      ∀ k, k < 8 → f.getLsbD k = (s.flags.getLsbD k && decide (k ≠ 3))

/-- R187: the flags do not gate the block: with any other value in `FLAGS` a command runs in the same way and leaves the same
state, `FLAGS` apart. -/
def Obligations.FlagsGateNoCommand : Prop :=
  ∀ (i : Instr) (s : State) (f : Byte),
    ∃ t f', exec i s = .next t ∧ exec i { s with flags := f } = .next { t with flags := f' }

/-- R190, R24: every command completes in every state with one of the codes R190 allows it; a bus fault sets `BUS_ERR`, a CRC
mismatch leaves `FLAGS` (R192), and a refusal changes nothing but `RES`. -/
def Obligations.EveryCommandEndsWithItsCode : Prop :=
  ∀ (i : Instr) (s : State), ∃ t, exec i s = .next t ∧ t.res ∈ possibleResults i ∧
    (t.res = 0x01#8 → t.flags = s.flags ||| 0x08#8) ∧ (t.res = 0x02#8 → t.flags = s.flags) ∧
    (t.res = 0x03#8 ∨ t.res = 0x04#8 → t = { s with res := t.res })

/-- R26, the columns "set by" and "cleared by", over every step that is no block reset: a readiness bit is set only by a
`SET_RDY` with its bit of `DATA` 1, and never cleared; `BUS_ERR` is set only by a command that ends in `BUS_FAULT` and
cleared only by `CLR_ERR`; bits 7:4 never change. -/
def Obligations.FlagsChangeOnlyAsTheirTableSays : Prop :=
  ∀ (s t : State) (x : Input) (rest : List Input), s.inputs = x :: rest → step s = .next t → (∀ d, x ≠ .blockReset d) →
    (∀ v n, x ≠ .resetDuring v n) →
    (∀ k, k < 3 → s.flags.getLsbD k = true → t.flags.getLsbD k = true) ∧
    (∀ k, k < 3 → s.flags.getLsbD k = false → t.flags.getLsbD k = true →
      x = cmdInput 0x50#8 ∧ s.data.getLsbD k = true) ∧
    (s.flags.getLsbD 3 = false → t.flags.getLsbD 3 = true → ∃ v, x = cmdInput v ∧ t.res = 0x01#8) ∧
    (s.flags.getLsbD 3 = true → t.flags.getLsbD 3 = false → x = cmdInput 0x51#8) ∧
    (∀ k, 4 ≤ k → k < 8 → t.flags.getLsbD k = s.flags.getLsbD k)

/-- R28, R30, R32, R37, R40: who writes what. Over every step that is no block reset, `SPU` changes only by `SPU_ON` and
`SPU_OFF`, the cursor (`FORK`, `PREV`) only by a command of family 3, `SEC` and `SNAP` only by `SYNC`, `TIE` only by a write to
`TCTRL`, and `TICK` only by a timer pulse or where a held event is served. -/
def Obligations.OnlyTheOwnersWrite : Prop :=
  ∀ (s t : State) (x : Input) (rest : List Input), s.inputs = x :: rest → step s = .next t → (∀ d, x ≠ .blockReset d) →
    (∀ v n, x ≠ .resetDuring v n) →
    (t.spu ≠ s.spu → x = cmdInput 0x16#8 ∨ x = cmdInput 0x17#8) ∧
    (t.fork ≠ s.fork ∨ t.prev ≠ s.prev →
      x = cmdInput 0x30#8 ∨ x = cmdInput 0x31#8 ∨ x = cmdInput 0x32#8 ∨ x = cmdInput 0x33#8) ∧
    (t.ticks.sec ≠ s.ticks.sec ∨ t.ticks.snap ≠ s.ticks.snap → x = cmdInput 0x40#8) ∧
    (t.ticks.tie ≠ s.ticks.tie → ∃ v, x = .port (.access (.write 0x20 1 v))) ∧
    (t.ticks.tick ≠ s.ticks.tick →
      x = .port .timerTick ∨ (s.ticks.tpend = true ∧ (x = cmdInput 0x40#8 ∨ ∃ v, x = .port (.access (.write 0x20 1 v)))))

/-- R69, R7: the history only grows, and the configuration never changes, whatever the step. That State holds both is the
model's choice (notes/assumptions/18; R69 asks for the history). -/
def Obligations.HistoryGrowsAndParametersStay : Prop :=
  ∀ s t : State, step s = .next t → t.cfg = s.cfg ∧ ∃ new, t.line.trace = new ++ s.line.trace

/-- R70: the block never samples while it asserts the line: in the trace every sample comes directly after a release, and
every step keeps it so. -/
def Obligations.SamplesStayBehindReleases : Prop :=
  ∀ s t : State, samplesFollowRelease s.line.trace = true → step s = .next t → samplesFollowRelease t.line.trace = true

/-- R242: the nominal duration of every command at the nominal line times: the table, row by row; every command is bounded
by a complete search pass, and an illegal opcode takes no line time. `new` is what the command added to the trace; the rows
that speak of presence, of no presence and of a triplet (1, 1) at position `p` say which events `new` is. -/
def Obligations.NominalDurationsAreTheTable : Prop :=
  (∀ (i : Instr) (s : State), s.cfg.NominalLineTimes →
    ∃ t new, exec i s = .next t ∧ t.line.trace = new ++ s.line.trace ∧ traceTime new ≤ 14960 ∧
      (t.res = 0x03#8 ∨ t.res = 0x04#8 ∨ i ∉ lineCommands → traceTime new = 0) ∧
      (i = .busReset →
        (t.res = 0x00#8 → new = resetEvents s.cfg false ∧ traceTime new = 960) ∧
        (t.res = 0x01#8 → new = resetEvents s.cfg true ∧ traceTime new = 550)) ∧
      (i = .writeBit ∨ i = .readBit → t.res = 0x00#8 → traceTime new = 70) ∧
      (i = .writeByte ∨ i = .readByte → t.res = 0x00#8 → traceTime new = 560) ∧
      (i = .matchId →
        (t.res = 0x00#8 → (∃ frames, new = frames ++ resetEvents s.cfg false) ∧ traceTime new = 6000) ∧
        (t.res = 0x01#8 → new = resetEvents s.cfg true ∧ traceTime new = 550)) ∧
      (∀ alarm, i = passCmd alarm →
        (t.res = 0x00#8 ∨ t.res = 0x02#8 → traceTime new = 14960) ∧
        (t.res = 0x01#8 →
          (new = resetEvents s.cfg true ∧ traceTime new = 550) ∨
          ∃ (p : Nat) (a b : Nat → Bool) (buf : Ident), 1 ≤ p ∧ p ≤ 64 ∧
            (∀ j, 1 ≤ j → j < p → (a j && b j) = false) ∧
            new = readSlotEvents s.cfg true ++ readSlotEvents s.cfg true ++ passEvents s.cfg a b buf (p - 1) ++
              byteFrameEvents s.cfg (if alarm then s.cfg.cmdAlarm else s.cfg.cmdSearch) ++ resetEvents s.cfg false ∧
            traceTime new = 1520 + 210 * (p - 1) + 140))) ∧
  ∀ (s : State) (v : Byte) (rest : List Input), s.inputs = cmdInput v :: rest → illegalOpcode v.toNat = true →
    ∃ t, step s = .next t ∧ t.line = s.line

/-- The invariant holds at reset: for every configuration of this block (R8: "for every admitted value"), and the one of
`State.reset`, which has the default window (notes/assumptions/4), is one of them. -/
def Obligations.InvariantHoldsAtReset : Prop :=
  (∀ c : Config, c.Admitted → (State.resetWith c).Inv) ∧ Config.nominal.Admitted ∧ State.reset.Inv

/-- R8, R96, R26, R30, R27, R35, R177 (h): from every state that meets the invariant, whatever the next input, a step that
gives a next state keeps it. -/
def Obligations.StepKeepsTheInvariant : Prop :=
  ∀ s t : State, s.Inv → step s = .next t → t.Inv

/-- R209, R61: from every state that meets the invariant, a run of any length over inputs that are accesses to this block,
timer pulses, resets and changes of the environment never stops, and meets the invariant throughout. -/
def Obligations.RunsInsideTheBlockNeverStop : Prop :=
  ∀ (k : Nat) (s : State), s.Inv → (∀ x ∈ s.inputs, x.foreign = false) → safeRun k s
end

