-- ==== Sys2Proof/Laws/State.lean ====
section
/-!
SUPPORT. One lemma per field for each operation that updates the state, the line or the tick group, so that no later proof
unfolds a record update.
-/
namespace Sys2Proof.Machine

/-! #### `endWith` -/

@[simp] theorem endWith_cfg (r : ResultCode) (s : State) : (endWith r s).cfg = s.cfg := rfl
@[simp] theorem endWith_cmd (r : ResultCode) (s : State) : (endWith r s).cmd = s.cmd := rfl
@[simp] theorem endWith_res (r : ResultCode) (s : State) : (endWith r s).res = r.code := rfl
@[simp] theorem endWith_data (r : ResultCode) (s : State) : (endWith r s).data = s.data := rfl
@[simp] theorem endWith_flags (r : ResultCode) (s : State) : (endWith r s).flags = s.flags := rfl
@[simp] theorem endWith_spu (r : ResultCode) (s : State) : (endWith r s).spu = s.spu := rfl
@[simp] theorem endWith_line (r : ResultCode) (s : State) : (endWith r s).line = s.line := rfl
@[simp] theorem endWith_crc (r : ResultCode) (s : State) : (endWith r s).crc = s.crc := rfl
@[simp] theorem endWith_fork (r : ResultCode) (s : State) : (endWith r s).fork = s.fork := rfl
@[simp] theorem endWith_id (r : ResultCode) (s : State) : (endWith r s).id = s.id := rfl
@[simp] theorem endWith_prev (r : ResultCode) (s : State) : (endWith r s).prev = s.prev := rfl
@[simp] theorem endWith_cntN (r : ResultCode) (s : State) : (endWith r s).cntN = s.cntN := rfl
@[simp] theorem endWith_cntA (r : ResultCode) (s : State) : (endWith r s).cntA = s.cntA := rfl
@[simp] theorem endWith_ticks (r : ResultCode) (s : State) : (endWith r s).ticks = s.ticks := rfl
@[simp] theorem endWith_reads (r : ResultCode) (s : State) : (endWith r s).reads = s.reads := rfl
@[simp] theorem endWith_inputs (r : ResultCode) (s : State) : (endWith r s).inputs = s.inputs := rfl

/-! #### `refuse` -/

@[simp] theorem refuse_cfg (r : ResultCode) (s : State) : (refuse r s).cfg = s.cfg := rfl
@[simp] theorem refuse_cmd (r : ResultCode) (s : State) : (refuse r s).cmd = s.cmd := rfl
@[simp] theorem refuse_res (r : ResultCode) (s : State) : (refuse r s).res = r.code := rfl
@[simp] theorem refuse_data (r : ResultCode) (s : State) : (refuse r s).data = s.data := rfl
@[simp] theorem refuse_flags (r : ResultCode) (s : State) : (refuse r s).flags = s.flags := rfl
@[simp] theorem refuse_spu (r : ResultCode) (s : State) : (refuse r s).spu = s.spu := rfl
@[simp] theorem refuse_line (r : ResultCode) (s : State) : (refuse r s).line = s.line := rfl
@[simp] theorem refuse_crc (r : ResultCode) (s : State) : (refuse r s).crc = s.crc := rfl
@[simp] theorem refuse_fork (r : ResultCode) (s : State) : (refuse r s).fork = s.fork := rfl
@[simp] theorem refuse_id (r : ResultCode) (s : State) : (refuse r s).id = s.id := rfl
@[simp] theorem refuse_prev (r : ResultCode) (s : State) : (refuse r s).prev = s.prev := rfl
@[simp] theorem refuse_cntN (r : ResultCode) (s : State) : (refuse r s).cntN = s.cntN := rfl
@[simp] theorem refuse_cntA (r : ResultCode) (s : State) : (refuse r s).cntA = s.cntA := rfl
@[simp] theorem refuse_ticks (r : ResultCode) (s : State) : (refuse r s).ticks = s.ticks := rfl
@[simp] theorem refuse_reads (r : ResultCode) (s : State) : (refuse r s).reads = s.reads := rfl
@[simp] theorem refuse_inputs (r : ResultCode) (s : State) : (refuse r s).inputs = s.inputs := rfl

/-! #### `raiseBusFault` -/

@[simp] theorem raiseBusFault_cfg (c : BusFaultCause) (s : State) : (raiseBusFault c s).cfg = s.cfg := rfl
@[simp] theorem raiseBusFault_cmd (c : BusFaultCause) (s : State) : (raiseBusFault c s).cmd = s.cmd := rfl
@[simp] theorem raiseBusFault_res (c : BusFaultCause) (s : State) : (raiseBusFault c s).res = 0x01#8 := rfl
@[simp] theorem raiseBusFault_data (c : BusFaultCause) (s : State) : (raiseBusFault c s).data = s.data := rfl
@[simp] theorem raiseBusFault_flags (c : BusFaultCause) (s : State) : (raiseBusFault c s).flags = setBusErr s.flags := rfl
@[simp] theorem raiseBusFault_spu (c : BusFaultCause) (s : State) : (raiseBusFault c s).spu = s.spu := rfl
@[simp] theorem raiseBusFault_line (c : BusFaultCause) (s : State) : (raiseBusFault c s).line = s.line := rfl
@[simp] theorem raiseBusFault_crc (c : BusFaultCause) (s : State) : (raiseBusFault c s).crc = s.crc := rfl
@[simp] theorem raiseBusFault_fork (c : BusFaultCause) (s : State) : (raiseBusFault c s).fork = s.fork := rfl
@[simp] theorem raiseBusFault_id (c : BusFaultCause) (s : State) : (raiseBusFault c s).id = s.id := rfl
@[simp] theorem raiseBusFault_prev (c : BusFaultCause) (s : State) : (raiseBusFault c s).prev = s.prev := rfl
@[simp] theorem raiseBusFault_cntN (c : BusFaultCause) (s : State) : (raiseBusFault c s).cntN = s.cntN := rfl
@[simp] theorem raiseBusFault_cntA (c : BusFaultCause) (s : State) : (raiseBusFault c s).cntA = s.cntA := rfl
@[simp] theorem raiseBusFault_ticks (c : BusFaultCause) (s : State) : (raiseBusFault c s).ticks = s.ticks := rfl
@[simp] theorem raiseBusFault_reads (c : BusFaultCause) (s : State) : (raiseBusFault c s).reads = s.reads := rfl
@[simp] theorem raiseBusFault_inputs (c : BusFaultCause) (s : State) : (raiseBusFault c s).inputs = s.inputs := rfl

/-! #### `raiseCrcMismatch` -/

@[simp] theorem raiseCrcMismatch_cfg (s : State) : (raiseCrcMismatch s).cfg = s.cfg := rfl
@[simp] theorem raiseCrcMismatch_cmd (s : State) : (raiseCrcMismatch s).cmd = s.cmd := rfl
@[simp] theorem raiseCrcMismatch_res (s : State) : (raiseCrcMismatch s).res = 0x02#8 := rfl
@[simp] theorem raiseCrcMismatch_data (s : State) : (raiseCrcMismatch s).data = s.data := rfl
@[simp] theorem raiseCrcMismatch_flags (s : State) : (raiseCrcMismatch s).flags = s.flags := rfl
@[simp] theorem raiseCrcMismatch_spu (s : State) : (raiseCrcMismatch s).spu = s.spu := rfl
@[simp] theorem raiseCrcMismatch_line (s : State) : (raiseCrcMismatch s).line = s.line := rfl
@[simp] theorem raiseCrcMismatch_crc (s : State) : (raiseCrcMismatch s).crc = s.crc := rfl
@[simp] theorem raiseCrcMismatch_fork (s : State) : (raiseCrcMismatch s).fork = s.fork := rfl
@[simp] theorem raiseCrcMismatch_id (s : State) : (raiseCrcMismatch s).id = s.id := rfl
@[simp] theorem raiseCrcMismatch_prev (s : State) : (raiseCrcMismatch s).prev = s.prev := rfl
@[simp] theorem raiseCrcMismatch_cntN (s : State) : (raiseCrcMismatch s).cntN = s.cntN := rfl
@[simp] theorem raiseCrcMismatch_cntA (s : State) : (raiseCrcMismatch s).cntA = s.cntA := rfl
@[simp] theorem raiseCrcMismatch_ticks (s : State) : (raiseCrcMismatch s).ticks = s.ticks := rfl
@[simp] theorem raiseCrcMismatch_reads (s : State) : (raiseCrcMismatch s).reads = s.reads := rfl
@[simp] theorem raiseCrcMismatch_inputs (s : State) : (raiseCrcMismatch s).inputs = s.inputs := rfl

/-! #### `raiseIllegal` -/

@[simp] theorem raiseIllegal_cfg (s : State) : (raiseIllegal s).cfg = s.cfg := rfl
@[simp] theorem raiseIllegal_cmd (s : State) : (raiseIllegal s).cmd = s.cmd := rfl
@[simp] theorem raiseIllegal_res (s : State) : (raiseIllegal s).res = 0xFF#8 := rfl
@[simp] theorem raiseIllegal_data (s : State) : (raiseIllegal s).data = s.data := rfl
@[simp] theorem raiseIllegal_flags (s : State) : (raiseIllegal s).flags = s.flags := rfl
@[simp] theorem raiseIllegal_spu (s : State) : (raiseIllegal s).spu = s.spu := rfl
@[simp] theorem raiseIllegal_line (s : State) : (raiseIllegal s).line = s.line := rfl
@[simp] theorem raiseIllegal_crc (s : State) : (raiseIllegal s).crc = s.crc := rfl
@[simp] theorem raiseIllegal_fork (s : State) : (raiseIllegal s).fork = s.fork := rfl
@[simp] theorem raiseIllegal_id (s : State) : (raiseIllegal s).id = s.id := rfl
@[simp] theorem raiseIllegal_prev (s : State) : (raiseIllegal s).prev = s.prev := rfl
@[simp] theorem raiseIllegal_cntN (s : State) : (raiseIllegal s).cntN = s.cntN := rfl
@[simp] theorem raiseIllegal_cntA (s : State) : (raiseIllegal s).cntA = s.cntA := rfl
@[simp] theorem raiseIllegal_ticks (s : State) : (raiseIllegal s).ticks = s.ticks := rfl
@[simp] theorem raiseIllegal_reads (s : State) : (raiseIllegal s).reads = s.reads := rfl
@[simp] theorem raiseIllegal_inputs (s : State) : (raiseIllegal s).inputs = s.inputs := rfl

/-! #### `setSpu` -/

@[simp] theorem setSpu_cfg (v : Bool) (s : State) : (setSpu v s).cfg = s.cfg := rfl
@[simp] theorem setSpu_cmd (v : Bool) (s : State) : (setSpu v s).cmd = s.cmd := rfl
@[simp] theorem setSpu_res (v : Bool) (s : State) : (setSpu v s).res = s.res := rfl
@[simp] theorem setSpu_data (v : Bool) (s : State) : (setSpu v s).data = s.data := rfl
@[simp] theorem setSpu_flags (v : Bool) (s : State) : (setSpu v s).flags = s.flags := rfl
@[simp] theorem setSpu_spu (v : Bool) (s : State) : (setSpu v s).spu = v := rfl
@[simp] theorem setSpu_line (v : Bool) (s : State) : (setSpu v s).line = { s.line with trace := .spu v :: s.line.trace } := rfl
@[simp] theorem setSpu_crc (v : Bool) (s : State) : (setSpu v s).crc = s.crc := rfl
@[simp] theorem setSpu_fork (v : Bool) (s : State) : (setSpu v s).fork = s.fork := rfl
@[simp] theorem setSpu_id (v : Bool) (s : State) : (setSpu v s).id = s.id := rfl
@[simp] theorem setSpu_prev (v : Bool) (s : State) : (setSpu v s).prev = s.prev := rfl
@[simp] theorem setSpu_cntN (v : Bool) (s : State) : (setSpu v s).cntN = s.cntN := rfl
@[simp] theorem setSpu_cntA (v : Bool) (s : State) : (setSpu v s).cntA = s.cntA := rfl
@[simp] theorem setSpu_ticks (v : Bool) (s : State) : (setSpu v s).ticks = s.ticks := rfl
@[simp] theorem setSpu_reads (v : Bool) (s : State) : (setSpu v s).reads = s.reads := rfl
@[simp] theorem setSpu_inputs (v : Bool) (s : State) : (setSpu v s).inputs = s.inputs := rfl

/-! #### `createCursor` -/

@[simp] theorem createCursor_cfg (s : State) : (createCursor s).cfg = s.cfg := rfl
@[simp] theorem createCursor_cmd (s : State) : (createCursor s).cmd = s.cmd := rfl
@[simp] theorem createCursor_res (s : State) : (createCursor s).res = s.res := rfl
@[simp] theorem createCursor_data (s : State) : (createCursor s).data = s.data := rfl
@[simp] theorem createCursor_flags (s : State) : (createCursor s).flags = s.flags := rfl
@[simp] theorem createCursor_spu (s : State) : (createCursor s).spu = s.spu := rfl
@[simp] theorem createCursor_line (s : State) : (createCursor s).line = s.line := rfl
@[simp] theorem createCursor_crc (s : State) : (createCursor s).crc = s.crc := rfl
@[simp] theorem createCursor_fork (s : State) : (createCursor s).fork = s.cfg.forkStart := rfl
@[simp] theorem createCursor_id (s : State) : (createCursor s).id = Ident.zero := rfl
@[simp] theorem createCursor_prev (s : State) : (createCursor s).prev = Ident.zero := rfl
@[simp] theorem createCursor_cntN (s : State) : (createCursor s).cntN = s.cntN := rfl
@[simp] theorem createCursor_cntA (s : State) : (createCursor s).cntA = s.cntA := rfl
@[simp] theorem createCursor_ticks (s : State) : (createCursor s).ticks = s.ticks := rfl
@[simp] theorem createCursor_reads (s : State) : (createCursor s).reads = s.reads := rfl
@[simp] theorem createCursor_inputs (s : State) : (createCursor s).inputs = s.inputs := rfl

/-! #### `syncState` -/

@[simp] theorem syncState_cfg (s : State) : (syncState s).cfg = s.cfg := rfl
@[simp] theorem syncState_cmd (s : State) : (syncState s).cmd = s.cmd := rfl
@[simp] theorem syncState_res (s : State) : (syncState s).res = 0x00#8 := rfl
@[simp] theorem syncState_data (s : State) : (syncState s).data = zext8 (syncTicks s.cfg.tickWindow s.ticks).1 := rfl
@[simp] theorem syncState_flags (s : State) : (syncState s).flags = s.flags := rfl
@[simp] theorem syncState_spu (s : State) : (syncState s).spu = s.spu := rfl
@[simp] theorem syncState_line (s : State) : (syncState s).line = s.line := rfl
@[simp] theorem syncState_crc (s : State) : (syncState s).crc = s.crc := rfl
@[simp] theorem syncState_fork (s : State) : (syncState s).fork = s.fork := rfl
@[simp] theorem syncState_id (s : State) : (syncState s).id = s.id := rfl
@[simp] theorem syncState_prev (s : State) : (syncState s).prev = s.prev := rfl
@[simp] theorem syncState_cntN (s : State) : (syncState s).cntN = s.cntN := rfl
@[simp] theorem syncState_cntA (s : State) : (syncState s).cntA = s.cntA := rfl
@[simp] theorem syncState_ticks (s : State) : (syncState s).ticks = (syncTicks s.cfg.tickWindow s.ticks).2 := rfl
@[simp] theorem syncState_reads (s : State) : (syncState s).reads = s.reads := rfl
@[simp] theorem syncState_inputs (s : State) : (syncState s).inputs = s.inputs := rfl

/-! #### `timerTick` -/

@[simp] theorem timerTick_cfg (s : State) : (timerTick s).cfg = s.cfg := rfl
@[simp] theorem timerTick_cmd (s : State) : (timerTick s).cmd = s.cmd := rfl
@[simp] theorem timerTick_res (s : State) : (timerTick s).res = s.res := rfl
@[simp] theorem timerTick_data (s : State) : (timerTick s).data = s.data := rfl
@[simp] theorem timerTick_flags (s : State) : (timerTick s).flags = s.flags := rfl
@[simp] theorem timerTick_spu (s : State) : (timerTick s).spu = s.spu := rfl
@[simp] theorem timerTick_line (s : State) : (timerTick s).line = s.line := rfl
@[simp] theorem timerTick_crc (s : State) : (timerTick s).crc = s.crc := rfl
@[simp] theorem timerTick_fork (s : State) : (timerTick s).fork = s.fork := rfl
@[simp] theorem timerTick_id (s : State) : (timerTick s).id = s.id := rfl
@[simp] theorem timerTick_prev (s : State) : (timerTick s).prev = s.prev := rfl
@[simp] theorem timerTick_cntN (s : State) : (timerTick s).cntN = s.cntN := rfl
@[simp] theorem timerTick_cntA (s : State) : (timerTick s).cntA = s.cntA := rfl
@[simp] theorem timerTick_ticks (s : State) : (timerTick s).ticks = timerEvent s.cfg.tickWindow s.ticks := rfl
@[simp] theorem timerTick_reads (s : State) : (timerTick s).reads = s.reads := rfl
@[simp] theorem timerTick_inputs (s : State) : (timerTick s).inputs = s.inputs := rfl

/-! #### `setEnvironment` -/

@[simp] theorem setEnvironment_cfg (e : Environment) (s : State) : (setEnvironment e s).cfg = s.cfg := rfl
@[simp] theorem setEnvironment_cmd (e : Environment) (s : State) : (setEnvironment e s).cmd = s.cmd := rfl
@[simp] theorem setEnvironment_res (e : Environment) (s : State) : (setEnvironment e s).res = s.res := rfl
@[simp] theorem setEnvironment_data (e : Environment) (s : State) : (setEnvironment e s).data = s.data := rfl
@[simp] theorem setEnvironment_flags (e : Environment) (s : State) : (setEnvironment e s).flags = s.flags := rfl
@[simp] theorem setEnvironment_spu (e : Environment) (s : State) : (setEnvironment e s).spu = s.spu := rfl
@[simp] theorem setEnvironment_line (e : Environment) (s : State) : (setEnvironment e s).line = { s.line with env := e } := rfl
@[simp] theorem setEnvironment_crc (e : Environment) (s : State) : (setEnvironment e s).crc = s.crc := rfl
@[simp] theorem setEnvironment_fork (e : Environment) (s : State) : (setEnvironment e s).fork = s.fork := rfl
@[simp] theorem setEnvironment_id (e : Environment) (s : State) : (setEnvironment e s).id = s.id := rfl
@[simp] theorem setEnvironment_prev (e : Environment) (s : State) : (setEnvironment e s).prev = s.prev := rfl
@[simp] theorem setEnvironment_cntN (e : Environment) (s : State) : (setEnvironment e s).cntN = s.cntN := rfl
@[simp] theorem setEnvironment_cntA (e : Environment) (s : State) : (setEnvironment e s).cntA = s.cntA := rfl
@[simp] theorem setEnvironment_ticks (e : Environment) (s : State) : (setEnvironment e s).ticks = s.ticks := rfl
@[simp] theorem setEnvironment_reads (e : Environment) (s : State) : (setEnvironment e s).reads = s.reads := rfl
@[simp] theorem setEnvironment_inputs (e : Environment) (s : State) : (setEnvironment e s).inputs = s.inputs := rfl

/-! #### `hostRead` -/

@[simp] theorem hostRead_cfg (off : Nat) (s : State) : (hostRead off s).cfg = s.cfg := rfl
@[simp] theorem hostRead_cmd (off : Nat) (s : State) : (hostRead off s).cmd = s.cmd := rfl
@[simp] theorem hostRead_res (off : Nat) (s : State) : (hostRead off s).res = s.res := rfl
@[simp] theorem hostRead_data (off : Nat) (s : State) : (hostRead off s).data = s.data := rfl
@[simp] theorem hostRead_flags (off : Nat) (s : State) : (hostRead off s).flags = s.flags := rfl
@[simp] theorem hostRead_spu (off : Nat) (s : State) : (hostRead off s).spu = s.spu := rfl
@[simp] theorem hostRead_line (off : Nat) (s : State) : (hostRead off s).line = s.line := rfl
@[simp] theorem hostRead_crc (off : Nat) (s : State) : (hostRead off s).crc = s.crc := rfl
@[simp] theorem hostRead_fork (off : Nat) (s : State) : (hostRead off s).fork = s.fork := rfl
@[simp] theorem hostRead_id (off : Nat) (s : State) : (hostRead off s).id = s.id := rfl
@[simp] theorem hostRead_prev (off : Nat) (s : State) : (hostRead off s).prev = s.prev := rfl
@[simp] theorem hostRead_cntN (off : Nat) (s : State) : (hostRead off s).cntN = s.cntN := rfl
@[simp] theorem hostRead_cntA (off : Nat) (s : State) : (hostRead off s).cntA = s.cntA := rfl
@[simp] theorem hostRead_ticks (off : Nat) (s : State) : (hostRead off s).ticks = s.ticks := rfl
@[simp] theorem hostRead_reads (off : Nat) (s : State) : (hostRead off s).reads = readReg s off :: s.reads := rfl
@[simp] theorem hostRead_inputs (off : Nat) (s : State) : (hostRead off s).inputs = s.inputs := rfl

/-! #### `blockReset` -/

@[simp] theorem blockReset_cfg (s : State) : (blockReset s).cfg = s.cfg := rfl
@[simp] theorem blockReset_cmd (s : State) : (blockReset s).cmd = 0x00#8 := rfl
@[simp] theorem blockReset_res (s : State) : (blockReset s).res = 0x00#8 := rfl
@[simp] theorem blockReset_data (s : State) : (blockReset s).data = 0x00#8 := rfl
@[simp] theorem blockReset_flags (s : State) : (blockReset s).flags = 0x00#8 := rfl
@[simp] theorem blockReset_spu (s : State) : (blockReset s).spu = false := rfl
@[simp] theorem blockReset_line (s : State) : (blockReset s).line = { s.line with dqLow := false } := rfl
@[simp] theorem blockReset_crc (s : State) : (blockReset s).crc = 0x00#8 := rfl
@[simp] theorem blockReset_fork (s : State) : (blockReset s).fork = 0x00#8 := rfl
@[simp] theorem blockReset_id (s : State) : (blockReset s).id = Ident.zero := rfl
@[simp] theorem blockReset_prev (s : State) : (blockReset s).prev = Ident.zero := rfl
@[simp] theorem blockReset_cntN (s : State) : (blockReset s).cntN = 0x00#8 := rfl
@[simp] theorem blockReset_cntA (s : State) : (blockReset s).cntA = 0x00#8 := rfl
@[simp] theorem blockReset_ticks (s : State) : (blockReset s).ticks = TickState.reset := rfl
@[simp] theorem blockReset_reads (s : State) : (blockReset s).reads = s.reads := rfl
@[simp] theorem blockReset_inputs (s : State) : (blockReset s).inputs = s.inputs := rfl

/-! #### `lineLow` -/

@[simp] theorem lineLow_dqLow (t : Nat) (l : Line) : (lineLow t l).dqLow = true := rfl
@[simp] theorem lineLow_trace (t : Nat) (l : Line) : (lineLow t l).trace = .low t :: l.trace := rfl
@[simp] theorem lineLow_env (t : Nat) (l : Line) : (lineLow t l).env = l.env := rfl
@[simp] theorem lineLow_draws (t : Nat) (l : Line) : (lineLow t l).draws = l.draws := rfl

/-! #### `lineRelease` -/

@[simp] theorem lineRelease_dqLow (t : Nat) (l : Line) : (lineRelease t l).dqLow = false := rfl
@[simp] theorem lineRelease_trace (t : Nat) (l : Line) : (lineRelease t l).trace = .rel t :: l.trace := rfl
@[simp] theorem lineRelease_env (t : Nat) (l : Line) : (lineRelease t l).env = l.env := rfl
@[simp] theorem lineRelease_draws (t : Nat) (l : Line) : (lineRelease t l).draws = l.draws := rfl

/-! #### `isrAction` -/

@[simp] theorem isrAction_tie (w : Nat) (t : TickState) : (isrAction w t).tie = t.tie := rfl
@[simp] theorem isrAction_tf (w : Nat) (t : TickState) : (isrAction w t).tf = true := rfl
@[simp] theorem isrAction_tpend (w : Nat) (t : TickState) : (isrAction w t).tpend = t.tpend := rfl
@[simp] theorem isrAction_tick (w : Nat) (t : TickState) : (isrAction w t).tick = BitVec.ofNat 16 ((t.tick.toNat + 1) % w) := rfl
@[simp] theorem isrAction_snap (w : Nat) (t : TickState) : (isrAction w t).snap = t.snap := rfl
@[simp] theorem isrAction_sec (w : Nat) (t : TickState) : (isrAction w t).sec = t.sec := rfl

end Sys2Proof.Machine
end

