-- ==== Sys2Proof/Laws/Commands.lean ====
section
/-!
SUPPORT. What a command, a port event and a step can do, said once: every command answers a next state, and a step that
answers a next state took one of the inputs in one of the ways listed.
-/
namespace Sys2Proof.Machine

/-- The state a command leaves. -/
def effect : Instr → State → State
  | .busReset, s => unlessHeld s busResetBody
  | .writeBit, s => unlessHeld s fun s => endWith .ok { s with line := writeBit s.cfg (s.data.getLsbD 0) s.line }
  | .readBit, s => unlessHeld s readBitBody
  | .writeByte, s => unlessHeld s fun s => endWith .ok { s with line := writeByte s.cfg s.data s.line }
  | .readByte, s => unlessHeld s readByteBody
  | .matchId, s => unlessHeld s matchIdBody
  | .spuOn, s => endWith .ok (setSpu true s)
  | .spuOff, s => endWith .ok (setSpu false s)
  | .crcStep, s => endWith .ok { s with crc := crc8Step s.cfg.crcPoly s.crc s.data }
  | .crcId, s => acceptIfZero (fun s => s) { s with crc := crc8Ident s.cfg s.id }
  | .srchStart, s => endWith .ok { createCursor s with cntN := 0x00 }
  | .srchStartA, s => endWith .ok { createCursor s with cntA := 0x00 }
  | .srchPass, s => searchPass false s
  | .srchPassA, s => searchPass true s
  | .sync, s => syncState s
  | .setRdy, s => endWith .ok { s with flags := setReady s.flags s.data }
  | .clrErr, s => endWith .ok { s with flags := clearBusErr s.flags }

/-- Every command runs to completion in every state. -/
theorem exec_eq_effect (i : Instr) (s : State) : exec i s = .next (effect i s) := by cases i <;> rfl

/-- The state a host write to `CMD` leaves. -/
def cmdEffect (v : Byte) (s : State) : State :=
  match decode v with
  | .ok i => effect i { s with cmd := v }
  | .error _ => raiseIllegal { s with cmd := v }

theorem writeCmd_eq_cmdEffect (v : Byte) (s : State) : writeCmd v s = .next (cmdEffect v s) := by
  unfold writeCmd cmdEffect
  cases decode v <;> simp [exec_eq_effect]

@[simp] theorem afterCmd_eq (i : Instr) (s : State) : afterCmd i s = cmdEffect (encode i) s := by
  simp [afterCmd, writeCmd_eq_cmdEffect]

theorem unlessHeld_held {s : State} (h : s.spu = true) (f : State → State) :
    unlessHeld s f = { s with res := 0x04#8 } := by
  simp [unlessHeld, h, refuse, endWith, ResultCode.code]

theorem unlessHeld_free {s : State} (h : s.spu = false) (f : State → State) : unlessHeld s f = f s := by
  simp [unlessHeld, h]

theorem portEvent_cmd (v : Byte) (s : State) :
    portEvent (.access (.write 0x00 1 v)) s = .next (cmdEffect v s) := by
  simp [portEvent, hostAccess, inBlock, hostWrite, writeCmd_eq_cmdEffect]

theorem portEvent_write {off : Nat} (h0 : off ≠ 0x00) (h : off ≤ 0x2F) (v : Byte) (s : State) :
    portEvent (.access (.write off 1 v)) s = .next (writeReg off v s) := by
  simp [portEvent, hostAccess, inBlock, hostWrite, h0, h]

theorem portEvent_read {off : Nat} (h : off ≤ 0x2F) (s : State) :
    portEvent (.access (.read off 1)) s = .next (hostRead off s) := by
  simp [portEvent, hostAccess, inBlock, h]

theorem step_cons {s : State} {x : Input} {rest : List Input} (h : s.inputs = x :: rest) :
    step s = deliver x { s with inputs := rest } := by
  unfold step
  rw [h]

/-- What a port event can do when it does not stop the machine. -/
theorem portEvent_cases {e : PortEvent} {s t : State} (h : portEvent e s = .next t) :
    (∃ v, e = .access (.write 0x00 1 v) ∧ t = cmdEffect v s) ∨
    (∃ off v, e = .access (.write off 1 v) ∧ off ≠ 0x00 ∧ off ≤ 0x2F ∧ t = writeReg off v s) ∨
    (∃ off, e = .access (.read off 1) ∧ off ≤ 0x2F ∧ t = hostRead off s) ∨
    (e = .timerTick ∧ t = timerTick s) := by
  rcases e with (⟨off, w⟩ | ⟨off, w, v⟩) | _
  · by_cases hw : w = 1 <;> by_cases ho : off ≤ 0x2F <;> simp [portEvent, hostAccess, inBlock, hw, ho] at h
    exact .inr (.inr (.inl ⟨off, by rw [hw], ho, h.symm⟩))
  · by_cases hw : w = 1 <;> by_cases ho : off ≤ 0x2F <;> simp [portEvent, hostAccess, inBlock, hw, ho] at h
    by_cases h0 : off = 0
    · simp [hostWrite, h0, writeCmd_eq_cmdEffect] at h
      exact .inl ⟨v, by rw [h0, hw], h.symm⟩
    · simp [hostWrite, h0] at h
      exact .inr (.inl ⟨off, v, by rw [hw], h0, ho, h.symm⟩)
  · injection h with h
    exact .inr (.inr (.inr ⟨rfl, h.symm⟩))

/-- What a step can do when it answers a next state. -/
theorem step_cases {s t : State} (h : step s = .next t) :
    (s.inputs = [] ∧ t = s) ∨
    (∃ e rest, s.inputs = .port e :: rest ∧ portEvent e { s with inputs := rest } = .next t) ∨
    (∃ d rest, s.inputs = .blockReset d :: rest ∧ t = blockReset { s with inputs := rest }) ∨
    (∃ v n rest, s.inputs = .resetDuring v n :: rest ∧
      t = blockReset { s with inputs := rest, line := cutLine n s.line (cmdEffect v { s with inputs := rest }).line }) ∨
    (∃ e rest, s.inputs = .environment e :: rest ∧ t = setEnvironment e { s with inputs := rest }) := by
  unfold step at h
  split at h
  · injection h with h
    exact .inl ⟨‹_›, h.symm⟩
  · rename_i x rest hx
    rw [hx]
    rcases x with e | d | ⟨v, n⟩ | e
    · exact .inr (.inl ⟨e, rest, rfl, h⟩)
    · injection h with h
      exact .inr (.inr (.inl ⟨d, rest, rfl, h.symm⟩))
    · simp only [deliver, resetDuring, writeCmd_eq_cmdEffect] at h
      injection h with h
      exact .inr (.inr (.inr (.inl ⟨v, n, rest, rfl, h.symm⟩)))
    · injection h with h
      exact .inr (.inr (.inr (.inr ⟨e, rest, rfl, h.symm⟩)))

/-- A host write changes at most the three storing registers and the tick group. -/
theorem writeReg_cases (off : Nat) (v : Byte) (s : State) :
    (∃ d c b, writeReg off v s = { s with data := d, crc := c, id := b }) ∨
    (off = 0x20 ∧ writeReg off v s = { s with ticks := writeTctrl s.cfg.tickWindow v s.ticks }) := by
  unfold writeReg
  split
  · exact .inl ⟨s.data, s.crc, _, rfl⟩
  · split
    · exact .inl ⟨v, s.crc, s.id, rfl⟩
    · exact .inl ⟨s.data, v, s.id, rfl⟩
    · exact .inr ⟨rfl, rfl⟩
    · exact .inl ⟨s.data, s.crc, s.id, rfl⟩

/-- A search pass writes only `RES`, `FLAGS`, the line, the cursor's elements, `CRC` and the counts. -/
theorem searchPass_writes (alarm : Bool) (s : State) : ∃ r f l k fk b p n m, searchPass alarm s =
    { s with res := r, flags := f, line := l, crc := k, fork := fk, id := b, prev := p, cntN := n, cntA := m } := by
  unfold searchPass unlessHeld
  split
  · exact ⟨_, _, _, _, _, _, _, _, _, rfl⟩
  unfold searchPassBody
  split
  · exact ⟨_, _, _, _, _, _, _, _, _, rfl⟩
  dsimp only
  split
  · unfold searchBody
    dsimp only
    generalize searchLoop _ _ _ _ _ _ _ = r
    split
    · exact ⟨_, _, _, _, _, _, _, _, _, rfl⟩
    · unfold finishPass acceptIfZero
      split <;> cases alarm <;> exact ⟨_, _, _, _, _, _, _, _, _, rfl⟩
  · exact ⟨_, _, _, _, _, _, _, _, _, rfl⟩

/-- No command writes the configuration, `CMD`, the values read or the inputs still to come. -/
theorem effect_writes (i : Instr) (s : State) : ∃ r d f u l k fk b p n m t, effect i s =
    { s with res := r, data := d, flags := f, spu := u, line := l, crc := k, fork := fk, id := b, prev := p, cntN := n,
             cntA := m, ticks := t } := by
  cases i <;> unfold effect <;> dsimp only
  case srchPass =>
    obtain ⟨r, f, l, k, fk, b, p, n, m, h⟩ := searchPass_writes false s
    exact ⟨r, _, f, _, l, k, fk, b, p, n, m, _, h⟩
  case srchPassA =>
    obtain ⟨r, f, l, k, fk, b, p, n, m, h⟩ := searchPass_writes true s
    exact ⟨r, _, f, _, l, k, fk, b, p, n, m, _, h⟩
  case crcId => unfold acceptIfZero; split <;> exact ⟨_, _, _, _, _, _, _, _, _, _, _, _, rfl⟩
  case busReset =>
    unfold unlessHeld busResetBody
    dsimp only
    split
    · exact ⟨_, _, _, _, _, _, _, _, _, _, _, _, rfl⟩
    · split <;> exact ⟨_, _, _, _, _, _, _, _, _, _, _, _, rfl⟩
  case matchId =>
    unfold unlessHeld matchIdBody
    dsimp only
    split
    · exact ⟨_, _, _, _, _, _, _, _, _, _, _, _, rfl⟩
    · split <;> exact ⟨_, _, _, _, _, _, _, _, _, _, _, _, rfl⟩
  all_goals try unfold unlessHeld
  all_goals try split
  all_goals exact ⟨_, _, _, _, _, _, _, _, _, _, _, _, rfl⟩

/-- A host write to `CMD` keeps the configuration, the values read and the inputs still to come. -/
theorem cmdEffect_keeps (v : Byte) (s : State) :
    (cmdEffect v s).cfg = s.cfg ∧ (cmdEffect v s).reads = s.reads ∧ (cmdEffect v s).inputs = s.inputs := by
  unfold cmdEffect
  split
  · rename_i i _
    obtain ⟨_, _, _, _, _, _, _, _, _, _, _, _, h⟩ := effect_writes i { s with cmd := v }
    rw [h]
    exact ⟨rfl, rfl, rfl⟩
  · exact ⟨rfl, rfl, rfl⟩

/-- One sequence of port events after another. -/
theorem runPort_append (a b : List PortEvent) (s t : State) (h : runPort a s = .next t) :
    runPort (a ++ b) s = runPort b t := by
  induction a generalizing s with
  | nil => injection h with h; rw [← h]; rfl
  | cons e es ih =>
    simp only [runPort, List.cons_append] at h ⊢
    split at h
    · exact ih _ h
    · cases h
    · cases h

end Sys2Proof.Machine
end

