-- ==== Sys2Proof/Laws/Crc.lean ====
section
/-!
SUPPORT. The algebra of the CRC step (42_crc8.md R144): linear over exclusive-or, and only zero gives zero.
-/
namespace Sys2Proof.Machine

/-- One shift is linear, whatever the polynomial. -/
theorem crcShift_xor (p a b : Byte) : crcShift p (a ^^^ b) = crcShift p a ^^^ crcShift p b := by
  unfold crcShift
  cases ha : a.getLsbD 0 <;> cases hb : b.getLsbD 0 <;>
    simp only [BitVec.getLsbD_xor, ha, hb, Bool.xor_self, Bool.xor_true, Bool.xor_false, Bool.not_false, if_true,
      Bool.false_eq_true, if_false, BitVec.ushiftRight_xor_distrib]
  · rw [BitVec.xor_assoc]
  · rw [BitVec.xor_assoc, BitVec.xor_assoc, BitVec.xor_comm p]
  · rw [BitVec.xor_assoc, ← BitVec.xor_assoc p, BitVec.xor_comm p, BitVec.xor_assoc, BitVec.xor_self, BitVec.xor_zero]

/-- Any number of shifts is linear. -/
theorem crcShift_iterate_xor (p : Byte) (n : Nat) (a b : Byte) :
    (crcShift p)^[n] (a ^^^ b) = (crcShift p)^[n] a ^^^ (crcShift p)^[n] b := by
  induction n generalizing a b with
  | zero => rfl
  | succ n ih => simp only [Function.iterate_succ_apply, crcShift_xor, ih]

/-- Eight shifts with the polynomial 0x8C bring only zero to zero. -/
theorem crcShift_iterate_eq_zero : ∀ a : Byte, (crcShift 0x8C#8)^[8] a = 0#8 → a = 0#8 := by decide +kernel

/-- For one data byte, different running values give different results. -/
theorem crc8Step_injective {a b d : Byte} (h : crc8Step 0x8C#8 a d = crc8Step 0x8C#8 b d) : a = b := by
  unfold crc8Step at h
  have h0 : (crcShift 0x8C#8)^[8] (a ^^^ b) = 0#8 := by
    have : a ^^^ b = (a ^^^ d) ^^^ (b ^^^ d) := by
      rw [BitVec.xor_assoc, BitVec.xor_comm b, ← BitVec.xor_assoc d, BitVec.xor_self, BitVec.zero_xor]
    rw [this, crcShift_iterate_xor, h, BitVec.xor_self]
  exact BitVec.xor_eq_zero_iff.mp (crcShift_iterate_eq_zero _ h0)

end Sys2Proof.Machine
end

