-- ==== Sys2Proof/Laws/Operands.lean ====
section
/-!
SUPPORT. What the operand forms mean: bits of a byte, bits of an eight-byte buffer, the bytes of a buffer.
-/
namespace Sys2Proof.Machine

theorem getLsbD_setBit (v : Byte) (k j : Nat) (b : Bool) (hk : k < 8) :
    (setBit v k b).getLsbD j = if j = k then b else v.getLsbD j := by
  unfold setBit
  by_cases hj : j < 8
  · interval_cases k <;> interval_cases j <;> cases b <;> simp
  · have h1 : v.getLsbD j = false := BitVec.getLsbD_of_ge _ _ (by omega)
    have : j ≠ k := by omega
    cases b <;> simp [this, h1, hj]

@[simp] theorem identByte_zero (k : Nat) : identByte Ident.zero k = 0#8 := by
  unfold identByte Ident.zero
  rcases Nat.lt_or_ge k 8 with h | h
  · simp [h]
  · simp [h]

theorem identByte_setIdentByte (buf : Ident) (k j : Nat) (v : Byte) (hk : k < 8) :
    identByte (setIdentByte buf k v) j = if j = k then v else identByte buf j := by
  unfold identByte setIdentByte
  by_cases h : j = k
  · subst h; simp [hk]
  · simp [h, Ne.symm h]

/-- The 64 positions name 64 different bits: a write of one position changes that bit alone (30_encoding.md R104). -/
theorem idbit_setIdbit (buf : Ident) (i j : Nat) (d : Bool) (hi : 1 ≤ i) (hi' : i ≤ 64) (hj : 1 ≤ j) :
    idbit (setIdbit buf i d) j = if j = i then d else idbit buf j := by
  unfold idbit setIdbit
  rw [identByte_setIdentByte _ _ _ _ (by omega)]
  by_cases h : j = i
  · subst h; simp [getLsbD_setBit _ _ _ _ (Nat.mod_lt _ (by omega : 8 > 0))]
  · simp only [h, if_false]
    by_cases hb : (j - 1) / 8 = (i - 1) / 8
    · rw [if_pos hb, getLsbD_setBit _ _ _ _ (Nat.mod_lt _ (by omega : 8 > 0)), hb]
      have : (j - 1) % 8 ≠ (i - 1) % 8 := by omega
      simp [this]
    · simp [hb]

@[simp] theorem idbit_zero (i : Nat) : idbit Ident.zero i = false := by simp [idbit]

/-- Buffers with the same 64 bits are the same. -/
theorem ident_ext_idbit {a b : Ident} (h : ∀ i, 1 ≤ i → i ≤ 64 → idbit a i = idbit b i) : a = b := by
  apply Vector.ext
  intro k hk
  have key : ∀ v : Ident, identByte v k = v[k] := fun v => by simp [identByte, hk]
  rw [← key a, ← key b]
  apply BitVec.eq_of_getLsbD_eq
  intro j hj
  have := h (8 * k + j + 1) (by omega) (by omega)
  unfold idbit at this
  have e1 : (8 * k + j + 1 - 1) / 8 = k := by omega
  have e2 : (8 * k + j + 1 - 1) % 8 = j := by omega
  rwa [e1, e2] at this

end Sys2Proof.Machine
end

