-- ==== Sys2Proof/Laws/Line.lean ====
section
/-!
SUPPORT. What each line procedure can do, said once: the events it adds, the level it leaves, the environment after it.
-/
namespace Sys2Proof.Machine

/-! ### One slot -/

@[simp] theorem writeBit_dqLow (c : Config) (b : Bool) (l : Line) : (writeBit c b l).dqLow = false := by
  cases b <;> rfl

@[simp] theorem writeBit_env (c : Config) (b : Bool) (l : Line) : (writeBit c b l).env = l.env.afterWrite c b := by
  cases b <;> rfl

@[simp] theorem writeBit_draws (c : Config) (b : Bool) (l : Line) : (writeBit c b l).draws = l.draws := by
  cases b <;> rfl

/-- A write slot adds its events and nothing else (30_encoding.md R101). -/
@[simp] theorem writeBit_trace (c : Config) (b : Bool) (l : Line) :
    (writeBit c b l).trace = writeSlotEvents c b ++ l.trace := by
  cases b <;> rfl

@[simp] theorem readBit_dqLow (c : Config) (l : Line) : (readBit c l).2.dqLow = false := rfl

@[simp] theorem readBit_env (c : Config) (l : Line) : (readBit c l).2.env = l.env.afterSample .readSlot := rfl

/-- A read slot adds its events, the sample among them (R101). -/
@[simp] theorem readBit_trace (c : Config) (l : Line) :
    (readBit c l).2.trace = readSlotEvents c (readBit c l).1 ++ l.trace := rfl

/-- The bit read is what the environment answers: the line is released at the sample (20_memory.md R70). -/
theorem readBit_level (c : Config) (l : Line) :
    (readBit c l).1 = l.env.answer .readSlot (Config.lineOracle (.rel c.tRds :: .low c.tRdl :: l.trace) l.draws) := by
  simp [readBit, lineSample, sampleLevel]

@[simp] theorem busReset_dqLow (c : Config) (l : Line) : (busReset c l).2.dqLow = false := by
  unfold busReset
  dsimp only
  split <;> rfl

@[simp] theorem busReset_env (c : Config) (l : Line) : (busReset c l).2.env = l.env.afterSample .presence := by
  unfold busReset
  dsimp only
  split <;> rfl

/-- A reset pulse adds its events; the last wait is there exactly if there was presence (R100). -/
@[simp] theorem busReset_trace (c : Config) (l : Line) :
    (busReset c l).2.trace = resetEvents c (!(busReset c l).1) ++ l.trace := by
  unfold busReset resetEvents
  dsimp only
  split <;> rename_i h <;> (simp only [lineSample] at h; simp [lineSample, h])

/-- Presence is a low answer to the presence sample. -/
theorem busReset_presence (c : Config) (l : Line) :
    (busReset c l).1 = !l.env.answer .presence (Config.lineOracle (.rel c.tPds :: .low c.tRstl :: l.trace) l.draws) := by
  unfold busReset
  dsimp only
  split <;> rename_i h <;> (simp [lineSample, sampleLevel] at h; simp [h])

/-! ### Byte frames -/

/-- The line after write slots carrying the bits `ks` of `v`. -/
theorem foldl_writeBit_trace (c : Config) (v : Byte) (ks : List Nat) (l : Line) :
    (ks.foldl (fun l k => writeBit c (v.getLsbD k) l) l).trace =
      (ks.reverse.flatMap fun k => writeSlotEvents c (v.getLsbD k)) ++ l.trace := by
  induction ks generalizing l with
  | nil => rfl
  | cons k ks ih => simp [ih, List.append_assoc]

@[simp] theorem writeByte_trace (c : Config) (v : Byte) (l : Line) :
    (writeByte c v l).trace = byteFrameEvents c v ++ l.trace := foldl_writeBit_trace c v frameBits l

@[simp] theorem writeByte_dqLow (c : Config) (v : Byte) (l : Line) : (writeByte c v l).dqLow = false := by
  simp [writeByte, frameBits]

@[simp] theorem writeByte_env (c : Config) (v : Byte) (l : Line) :
    (writeByte c v l).env = frameBits.foldl (fun e k => e.afterWrite c (v.getLsbD k)) l.env := by
  simp [writeByte, frameBits]

@[simp] theorem writeByte_draws (c : Config) (v : Byte) (l : Line) : (writeByte c v l).draws = l.draws := by
  simp [writeByte, frameBits]

/-- The frames of several bytes, one after another. -/
theorem foldl_writeByte_trace (c : Config) (vs : List Byte) (l : Line) :
    (vs.foldl (fun l v => writeByte c v l) l).trace = vs.reverse.flatMap (byteFrameEvents c) ++ l.trace := by
  induction vs generalizing l with
  | nil => rfl
  | cons v vs ih => simp [ih, List.append_assoc]

theorem foldl_writeByte_dqLow (c : Config) (vs : List Byte) (l : Line) (h : l.dqLow = false) :
    (vs.foldl (fun l v => writeByte c v l) l).dqLow = false := by
  induction vs generalizing l with
  | nil => exact h
  | cons v vs ih => exact ih _ (by simp)

@[simp] theorem writeIdent_trace (c : Config) (buf : Ident) (l : Line) :
    (writeIdent c buf l).trace = buf.toList.reverse.flatMap (byteFrameEvents c) ++ l.trace :=
  foldl_writeByte_trace c _ l

theorem writeIdent_dqLow (c : Config) (buf : Ident) (l : Line) (h : l.dqLow = false) :
    (writeIdent c buf l).dqLow = false := foldl_writeByte_dqLow c _ l h

/-- Read slots for the bits `ks` of a byte: the bits outside `ks` stay, the events are those of the bits read, in order. -/
theorem readBits_spec (c : Config) (ks : List Nat) (hk : ∀ k ∈ ks, k < 8) (hn : ks.Nodup) (v : Byte) (l : Line) :
    (∀ j, j ∉ ks → (readBits c ks v l).1.getLsbD j = v.getLsbD j) ∧
    (readBits c ks v l).2.trace =
      (ks.reverse.flatMap fun k => readSlotEvents c ((readBits c ks v l).1.getLsbD k)) ++ l.trace := by
  induction ks generalizing v l with
  | nil => exact ⟨fun _ _ => rfl, rfl⟩
  | cons k ks ih =>
    have hk8 : k < 8 := hk k (by simp)
    obtain ⟨hkn, hn'⟩ := List.nodup_cons.mp hn
    obtain ⟨h1, h2⟩ := ih (fun j hj => hk j (by simp [hj])) hn' (setBit v k (readBit c l).1) (readBit c l).2
    simp only [readBits]
    refine ⟨fun j hj => ?_, ?_⟩
    · rw [h1 j (by simp_all), getLsbD_setBit _ _ _ _ hk8]
      have : j ≠ k := by simp_all
      simp [this]
    · rw [h2, List.reverse_cons, List.flatMap_append]
      simp [h1 k hkn, getLsbD_setBit _ _ _ _ hk8, List.append_assoc]

theorem readBits_dqLow (c : Config) (ks : List Nat) (v : Byte) (l : Line) (h : l.dqLow = false) :
    (readBits c ks v l).2.dqLow = false := by
  induction ks generalizing v l with
  | nil => exact h
  | cons k ks ih => exact ih _ _ (by simp)

/-- The sample of the `k`-th slot of `ReadByte` is bit `k` of its result (41_byte_framing.md R131). -/
theorem readByte_trace (c : Config) (l : Line) :
    (readByte c l).2.trace =
      (frameBits.reverse.flatMap fun k => readSlotEvents c ((readByte c l).1.getLsbD k)) ++ l.trace :=
  (readBits_spec c frameBits (by decide) (by decide) 0x00 l).2

@[simp] theorem readByte_dqLow (c : Config) (l : Line) : (readByte c l).2.dqLow = false := by
  unfold readByte frameBits
  exact readBits_dqLow c [1, 2, 3, 4, 5, 6, 7] _ _ (by simp)

/-- The level after a read slot is the released line. -/
theorem readSlotEvents_length (c : Config) (b : Bool) : (readSlotEvents c b).length = 4 := rfl

theorem writeSlotEvents_length (c : Config) (b : Bool) : (writeSlotEvents c b).length = 2 := by cases b <;> rfl

end Sys2Proof.Machine
end

