-- ==== Sys2Proof/Laws/PerInstr.lean ====
section
/-!
SUPPORT. The families of lemmas with one lemma per command. `Fields`: the two fields of a command's row of the opcode table
are well formed, and they are what stands in bits 7:4 and 3:0 of the command's byte (30_encoding.md R90, R92).
-/
namespace Sys2Proof.Laws.Fields

/-- What `Fields` says of a command. -/
def Statement (i : Instr) : Prop := i.wellFormed = true ∧ CmdFields.ofByte (encode i) = i.fields

theorem busReset : Statement .busReset := ⟨rfl, rfl⟩
theorem writeBit : Statement .writeBit := ⟨rfl, rfl⟩
theorem readBit : Statement .readBit := ⟨rfl, rfl⟩
theorem writeByte : Statement .writeByte := ⟨rfl, rfl⟩
theorem readByte : Statement .readByte := ⟨rfl, rfl⟩
theorem matchId : Statement .matchId := ⟨rfl, rfl⟩
theorem spuOn : Statement .spuOn := ⟨rfl, rfl⟩
theorem spuOff : Statement .spuOff := ⟨rfl, rfl⟩
theorem crcStep : Statement .crcStep := ⟨rfl, rfl⟩
theorem crcId : Statement .crcId := ⟨rfl, rfl⟩
theorem srchStart : Statement .srchStart := ⟨rfl, rfl⟩
theorem srchStartA : Statement .srchStartA := ⟨rfl, rfl⟩
theorem srchPass : Statement .srchPass := ⟨rfl, rfl⟩
theorem srchPassA : Statement .srchPassA := ⟨rfl, rfl⟩
theorem sync : Statement .sync := ⟨rfl, rfl⟩
theorem setRdy : Statement .setRdy := ⟨rfl, rfl⟩
theorem clrErr : Statement .clrErr := ⟨rfl, rfl⟩

end Sys2Proof.Laws.Fields
end

