-- ==== Sys2Proof/Laws/Search.lean ====
section
/-!
SUPPORT. What the search loop and a pass can do, said once: which events they add, which bits they choose, which fork
position they remember (43_discovery.md R152, R153).
-/
namespace Sys2Proof.Machine

/-- The bit at position `i` on reads that are not both 1: the forced value, or the choice of R153. -/
theorem chooseBit_fst (i fork : Nat) (prev : Ident) (nf : Nat) (a b : Bool) :
    (chooseBit i fork prev nf a b).1 = chosenBit fork prev i a b := by
  unfold chosenBit chooseBit forkDecision
  split
  · rfl
  · split
    · rfl
    · split <;> rfl

/-- A position is remembered exactly if a fork was met there and 0 chosen (R153). -/
theorem chooseBit_snd (i fork : Nat) (prev : Ident) (nf : Nat) (a b : Bool) :
    (chooseBit i fork prev nf a b).2 =
      if a = b ∧ (chooseBit i fork prev nf a b).1 = false then i else nf := by
  unfold chooseBit forkDecision
  by_cases hab : a = b
  · simp only [hab, ne_eq, not_true_eq_false, if_false, true_and]
    split
    · cases h : idbit prev i <;> simp
    · split <;> simp
  · simp [hab]

/-- The loop over `n` positions from `i` on. `a j` and `b j` are what was read at position `j`. The loop either answers all
the positions or ends at a position `p` where both reads were 1. -/
theorem searchLoop_cases (c : Config) (fork : Nat) (prev : Ident) (n : Nat) (i nf : Nat) (l : Line) (buf : Ident)
    (hi : 1 ≤ i) (hn : i + n ≤ 65) :
    ∃ (a b : Nat → Bool) (r : LoopResult), searchLoop c fork prev (List.range' i n) nf l buf = r ∧
      (∀ j, 1 ≤ j → j < i → idbit r.id j = idbit buf j) ∧
      ((∃ nf', r.ending = .complete nf' ∧
          r.line.trace = ((List.range' i n).map fun j => tripletEvents c (a j) (b j) (idbit r.id j)).reverse.flatten
            ++ l.trace ∧
          (l.dqLow = false → r.line.dqLow = false) ∧
          (∀ j, i ≤ j → j < i + n → (a j && b j) = false ∧ idbit r.id j =
            chosenBit fork prev j (a j) (b j)) ∧
          (∀ j, i + n ≤ j → j ≤ 64 → idbit r.id j = idbit buf j) ∧
          (∀ j, i ≤ j → j < i + n → a j = b j → idbit r.id j = false → j ≤ nf') ∧
          ((nf' = nf ∧ ∀ j, i ≤ j → j < i + n → ¬ (a j = b j ∧ idbit r.id j = false)) ∨
            (i ≤ nf' ∧ nf' < i + n ∧ a nf' = b nf' ∧ idbit r.id nf' = false))) ∨
       (∃ p, r.ending = .noResponse p ∧ i ≤ p ∧ p < i + n ∧ a p = true ∧ b p = true ∧
          r.line.trace = readSlotEvents c true ++ readSlotEvents c true ++
            ((List.range' i (p - i)).map fun j => tripletEvents c (a j) (b j) (idbit r.id j)).reverse.flatten
            ++ l.trace ∧
          r.line.dqLow = false ∧
          (∀ j, i ≤ j → j < p → (a j && b j) = false ∧ idbit r.id j =
            chosenBit fork prev j (a j) (b j)) ∧
          (∀ j, p ≤ j → j ≤ 64 → idbit r.id j = idbit buf j))) := by
  induction n generalizing i nf l buf with
  | zero =>
    refine ⟨fun _ => false, fun _ => false, _, rfl, fun _ _ _ => rfl, .inl ⟨nf, rfl, rfl, id, ?_, fun _ _ _ => rfl, ?_,
      .inl ⟨rfl, ?_⟩⟩⟩ <;> intro j h1 h2 <;> omega
  | succ n ih =>
    rw [List.range'_succ]
    unfold searchLoop
    dsimp only
    generalize hra : readBit c l = ra
    generalize hrb : readBit c ra.2 = rb
    have tra : ra.2.trace = readSlotEvents c ra.1 ++ l.trace := by rw [← hra]; simp
    have trb : rb.2.trace = readSlotEvents c rb.1 ++ ra.2.trace := by rw [← hrb]; simp
    have hdq : rb.2.dqLow = false := by rw [← hrb]; simp
    split
    · rename_i hboth
      simp only [Bool.and_eq_true] at hboth
      refine ⟨fun _ => true, fun _ => true, _, rfl, fun _ _ _ => rfl, .inr ⟨i, rfl, le_refl _, by omega, rfl, rfl, ?_, hdq,
        ?_, fun _ _ _ => rfl⟩⟩
      · simp [trb, tra, hboth]
      · intro j h1 h2; omega
    · rename_i hboth
      simp only [Bool.not_eq_true] at hboth
      generalize hch : chooseBit i fork prev nf ra.1 rb.1 = ch
      obtain ⟨a, b, r, hr, hlow, hcase⟩ := ih (i + 1) ch.2 (writeBit c ch.1 rb.2) (setIdbit buf i ch.1) (by omega) (by omega)
      have hbit : idbit r.id i = ch.1 := by
        rw [hlow i hi (by omega), idbit_setIdbit _ _ _ _ hi (by omega) hi]; simp
      have hc1 : ch.1 = chosenBit fork prev i ra.1 rb.1 := by
        rw [← hch, chooseBit_fst]
      have hc2 : ch.2 = if ra.1 = rb.1 ∧ ch.1 = false then i else nf := by
        rw [← hch]; exact chooseBit_snd ..
      have hne : ∀ j, i + 1 ≤ j → j ≠ i := fun j h => by omega
      have hmap : ∀ m, ((List.range' (i + 1) m).map fun j => tripletEvents c (if j = i then ra.1 else a j)
            (if j = i then rb.1 else b j) (idbit r.id j)) =
          ((List.range' (i + 1) m).map fun j => tripletEvents c (a j) (b j) (idbit r.id j)) := by
        intro m
        apply List.map_congr_left
        intro j hj
        have : j ≠ i := by have := List.mem_range'_1.mp hj; omega
        simp [this]
      have htrip : tripletEvents c ra.1 rb.1 (idbit r.id i) ++ l.trace = (writeBit c ch.1 rb.2).trace := by
        rw [hbit]; simp [tripletEvents, trb, tra]
      refine ⟨fun j => if j = i then ra.1 else a j, fun j => if j = i then rb.1 else b j, r, hr, ?_, ?_⟩
      · intro j h1 h2
        rw [hlow j h1 (by omega), idbit_setIdbit _ _ _ _ hi (by omega) h1, if_neg (by omega)]
      · have hrest : ∀ j, i + 1 ≤ j → j ≤ 64 → idbit (setIdbit buf i ch.1) j = idbit buf j := by
          intro j h1 h2
          rw [idbit_setIdbit _ _ _ _ hi (by omega) (by omega), if_neg (by omega)]
        rcases hcase with ⟨nf', he, ht, hd, hb, hafter, hopen, hnf⟩ | ⟨p, he, hp1, hp2, hap, hbp, ht, hd, hb, hafter⟩
        · refine .inl ⟨nf', he, ?_, fun _ => hd (by simp), ?_, ?_, ?_, ?_⟩
          · rw [ht, List.map_cons, List.reverse_cons, List.flatten_append, hmap, ← htrip]
            simp
          · intro j h1 h2
            by_cases hj : j = i
            · subst hj; simp [hboth, hbit, hc1]
            · simpa [hj] using hb j (by omega) (by omega)
          · intro j h1 h2
            rw [hafter j (by omega) h2, hrest j (by omega) h2]
          · intro j h1 h2 h3 h4
            by_cases hj : j = i
            · subst hj
              simp only [if_true] at h3
              have hnf2 : ch.2 = j := by rw [hc2, if_pos ⟨h3, by rw [← hbit]; exact h4⟩]
              rcases hnf with ⟨h, _⟩ | ⟨h, _⟩ <;> omega
            · simp only [hj, if_false] at h3
              exact hopen j (by omega) (by omega) h3 h4
          · rcases hnf with ⟨h, hno⟩ | ⟨h1, h2, h3, h4⟩
            · by_cases ho : ra.1 = rb.1 ∧ ch.1 = false
              · rw [hc2, if_pos ho] at h
                subst h
                exact .inr ⟨le_refl _, by omega, by simp [ho.1], by rw [hbit]; exact ho.2⟩
              · rw [hc2, if_neg ho] at h
                refine .inl ⟨h, fun j h1 h2 => ?_⟩
                by_cases hj : j = i
                · subst hj; simpa [hbit] using ho
                · simpa [hj] using hno j (by omega) (by omega)
            · exact .inr ⟨by omega, by omega, by simp [hne nf' h1, h3], h4⟩
        · refine .inr ⟨p, he, by omega, by omega, by simp [hne p hp1, hap], by simp [hne p hp1, hbp], ?_, hd, ?_, ?_⟩
          · have hpi : p - i = (p - (i + 1)) + 1 := by omega
            rw [ht, hpi, List.range'_succ, List.map_cons, List.reverse_cons, List.flatten_append, hmap, ← htrip]
            simp
          · intro j h1 h2
            by_cases hj : j = i
            · subst hj; simp [hboth, hbit, hc1]
            · simpa [hj] using hb j (by omega) (by omega)
          · intro j h1 h2
            rw [hafter j h1 h2, hrest j (by omega) h2]

end Sys2Proof.Machine
end

