-- ==== Sys2Proof/Laws/Reference.lean ====
section
/-!
SUPPORT. The reference environment (20_memory.md R71) under the line procedures: how its devices move through a command
byte, a match and the triplets of a search, and what the search loop therefore finds.
-/
namespace Sys2Proof.Machine

/-! ### Written bits -/

/-- Bits written one after another move each device on its own. -/
theorem afterWrite_foldl (c : Config) (bs : List Bool) (r : Reference) :
    bs.foldl (fun e b => Environment.afterWrite c b e) (.reference r) =
      .reference { r with devices := r.devices.map (fun d => bs.foldl (fun d b => d.onWrite c b) d) } := by
  induction bs generalizing r with
  | nil => simp
  | cons b bs ih =>
    simp only [List.foldl_cons]
    rw [Environment.afterWrite, ih]
    simp [Function.comp_def]

theorem writeByte_env_bits (c : Config) (v : Byte) (l : Line) :
    (writeByte c v l).env = (frameBits.map v.getLsbD).foldl (fun e b => Environment.afterWrite c b e) l.env := by
  rw [writeByte_env, List.foldl_map]

/-- The 64 bits of an identity travel in the order of their positions (30_encoding.md R104). -/
theorem identity_bits (buf : Ident) :
    buf.toList.flatMap (fun v => frameBits.map v.getLsbD) = positions.map (idbit buf) := by
  have : buf.toList = [buf[0], buf[1], buf[2], buf[3], buf[4], buf[5], buf[6], buf[7]] := by
    apply List.ext_getElem
    · simp
    · intro n h1 h2
      simp at h1
      interval_cases n <;> simp
  rw [this]
  simp [positions, List.range'_succ, frameBits, idbit, identByte]

theorem writeIdent_env_bits (c : Config) (buf : Ident) (l : Line) :
    (writeIdent c buf l).env = (positions.map (idbit buf)).foldl (fun e b => Environment.afterWrite c b e) l.env := by
  rw [← identity_bits]
  unfold writeIdent
  generalize buf.toList = bs
  induction bs generalizing l with
  | nil => rfl
  | cons v vs ih =>
    simp only [List.foldl_cons, List.flatMap_cons, List.foldl_append]
    rw [ih, writeByte_env_bits]

/-- After a reset pulse and one byte frame a device has decoded that byte. -/
theorem onWrite_commandByte (c : Config) (v : Byte) (d : Device) :
    (frameBits.map v.getLsbD).foldl (fun d b => d.onWrite c b) { d with st := .command 0 0#8 } =
      { d with st := d.decodeWire c v } := by
  have assembled : ∀ v : Byte,
      0#8 ||| (zext8 (v.getLsbD 0) <<< 0) ||| (zext8 (v.getLsbD 1) <<< 1) ||| (zext8 (v.getLsbD 2) <<< 2) |||
        (zext8 (v.getLsbD 3) <<< 3) ||| (zext8 (v.getLsbD 4) <<< 4) ||| (zext8 (v.getLsbD 5) <<< 5) |||
        (zext8 (v.getLsbD 6) <<< 6) ||| (zext8 (v.getLsbD 7) <<< 7) = v := by decide +kernel
  have next : ∀ n acc b, n + 1 ≠ 8 → Device.onWrite c b { d with st := .command n acc } =
      { d with st := .command (n + 1) (acc ||| (zext8 b <<< n)) } := by
    intro n acc b hn
    simp only [Device.onWrite]
    rw [if_neg hn]
  have last : ∀ acc b, Device.onWrite c b { d with st := .command 7 acc } =
      { d with st := d.decodeWire c (acc ||| (zext8 b <<< 7)) } := fun _ _ => rfl
  simp only [frameBits, List.map_cons, List.map_nil, List.foldl_cons, List.foldl_nil]
  rw [next 0 _ _ (by decide), next 1 _ _ (by decide), next 2 _ _ (by decide), next 3 _ _ (by decide),
    next 4 _ _ (by decide), next 5 _ _ (by decide), next 6 _ _ (by decide), last]
  have same : ∀ x y, x = y → ({ d with st := d.decodeWire c x } : Device) = { d with st := d.decodeWire c y } := by
    intro x y h
    rw [h]
  exact same _ _ (assembled v)

/-- A device that takes no part is not moved by write slots. -/
theorem onWrite_idle (c : Config) (bs : List Bool) (d : Device) (h : d.st = .idle) :
    bs.foldl (fun d b => d.onWrite c b) d = d := by
  induction bs generalizing d with
  | nil => rfl
  | cons b bs ih =>
    have : d.onWrite c b = d := by simp [Device.onWrite, h]
    rw [List.foldl_cons, this]
    exact ih d h

/-! ### Taking part in a search -/

/-- The bits of the two buffers are equal below position `i`. -/
abbrev agreesBelow (x buf : Ident) (i : Nat) : Prop := ∀ j, j < i → 1 ≤ j → idbit x j = idbit buf j

theorem agreesBelow_succ (x buf : Ident) (i : Nat) (hi : 1 ≤ i) :
    agreesBelow x buf (i + 1) ↔ agreesBelow x buf i ∧ idbit x i = idbit buf i := by
  constructor
  · intro h
    exact ⟨fun j b a => h j (by omega) a, h i (by omega) hi⟩
  · rintro ⟨h, h'⟩ j b a
    by_cases hj : j = i
    · subst hj; exact h'
    · exact h j (by omega) a

theorem agreesBelow_setIdbit (x buf : Ident) (i : Nat) (d : Bool) (hi : 1 ≤ i) (hi' : i ≤ 64) :
    agreesBelow x (setIdbit buf i d) i ↔ agreesBelow x buf i := by
  constructor <;> intro h j b a
  · have := h j b a
    rwa [idbit_setIdbit _ _ _ _ hi hi' a, if_neg (by omega)] at this
  · rw [idbit_setIdbit _ _ _ _ hi hi' a, if_neg (by omega)]
    exact h j b a

/-- A device before the triplet of position `i` of a search that has chosen the bits of `buf` so far: it takes part if its
identity agrees with them; at 65 it has been followed to the end. -/
def Device.before (buf : Ident) (i : Nat) (d : Device) : Device :=
  { d with st := if agreesBelow d.rom buf i then (if i = 65 then .selected else .search i .trueBit) else .idle }

/-- One triplet: the first read is 1 exactly if every device taking part has a 1 there, the second exactly if every one has
a 0, and the written bit keeps the devices that have it. -/
theorem triplet_spec (c : Config) (ds : List Device) (buf : Ident) (i : Nat) (hi : 1 ≤ i) (hi' : i ≤ 64) (l : Line)
    (he : l.env = .reference ⟨ds.map (Device.before buf i), false, true⟩) :
    ((readBit c l).1 = true ↔ ∀ d ∈ ds, agreesBelow d.rom buf i → idbit d.rom i = true) ∧
    ((readBit c (readBit c l).2).1 = true ↔ ∀ d ∈ ds, agreesBelow d.rom buf i → idbit d.rom i = false) ∧
    ∀ v, (writeBit c v (readBit c (readBit c l).2).2).env =
      .reference ⟨ds.map (Device.before (setIdbit buf i v) (i + 1)), false, true⟩ := by
  have h65 : i ≠ 65 := by omega
  have e1 : (readBit c l).2.env = .reference ⟨ds.map (fun d => (Device.before buf i d).onRead), false, true⟩ := by
    rw [readBit_env, he]
    simp [Environment.afterSample, Reference.afterSample, Function.comp_def]
  have e2 : (readBit c (readBit c l).2).2.env =
      .reference ⟨ds.map (fun d => (Device.before buf i d).onRead.onRead), false, true⟩ := by
    rw [readBit_env, e1]
    simp [Environment.afterSample, Reference.afterSample, Function.comp_def]
  refine ⟨?_, ?_, ?_⟩
  · rw [readBit_level, he]
    simp only [Environment.answer, Reference.answer, if_true, Bool.false_eq_true, if_false, List.all_map, List.all_eq_true]
    apply forall₂_congr
    intro d hd
    by_cases h : agreesBelow d.rom buf i
    · have : Device.before buf i d = { d with st := .search i .trueBit } := by
        unfold Device.before; rw [if_pos h, if_neg h65]
      simp only [Function.comp, this, Device.sends]
      exact ⟨fun g _ => g, fun g => g h⟩
    · have : Device.before buf i d = { d with st := .idle } := by unfold Device.before; rw [if_neg h]
      simp only [Function.comp, this, Device.sends]
      exact ⟨fun _ g => absurd g h, fun _ => trivial⟩
  · rw [readBit_level, e1]
    simp only [Environment.answer, Reference.answer, if_true, Bool.false_eq_true, if_false, List.all_map, List.all_eq_true]
    apply forall₂_congr
    intro d hd
    by_cases h : agreesBelow d.rom buf i
    · have : Device.before buf i d = { d with st := .search i .trueBit } := by
        unfold Device.before; rw [if_pos h, if_neg h65]
      simp only [Function.comp, this, Device.onRead, Device.sends, Bool.not_eq_true']
      exact ⟨fun g _ => g, fun g => g h⟩
    · have : Device.before buf i d = { d with st := .idle } := by unfold Device.before; rw [if_neg h]
      simp only [Function.comp, this, Device.onRead, Device.sends]
      exact ⟨fun _ g => absurd g h, fun _ => trivial⟩
  · intro v
    rw [writeBit_env, e2]
    simp only [Environment.afterWrite, List.map_map]
    congr 2
    apply List.map_congr_left
    intro d hd
    simp only [Function.comp]
    have hs : agreesBelow d.rom (setIdbit buf i v) (i + 1) ↔ agreesBelow d.rom buf i ∧ idbit d.rom i = v := by
      rw [agreesBelow_succ _ _ _ hi, agreesBelow_setIdbit _ _ _ _ hi hi', idbit_setIdbit _ _ _ _ hi hi' hi, if_pos rfl]
    by_cases h : agreesBelow d.rom buf i
    · have e' : (Device.before buf i d).onRead.onRead = { d with st := .search i .choice } := by
        unfold Device.before; rw [if_pos h, if_neg h65]; rfl
      rw [e']
      simp only [Device.onWrite, Device.before]
      by_cases hv : idbit d.rom i = v
      · rw [if_pos hv, if_pos (hs.mpr ⟨h, hv⟩)]
        by_cases h64 : i = 64
        · rw [if_pos h64, if_pos (by omega)]
        · rw [if_neg h64, if_neg (by omega)]
      · rw [if_neg hv, if_neg (fun g => hv (hs.mp g).2)]
    · have e' : (Device.before buf i d).onRead.onRead = { d with st := .idle } := by
        unfold Device.before; rw [if_neg h]; rfl
      rw [e']
      simp only [Device.onWrite, Device.before]
      rw [if_neg (fun g => h (hs.mp g).1)]

/-- A fork stands at position `j` of the path `r`: devices that follow it so far have both values there. -/
def forkAt (ds : List Device) (r : Ident) (j : Nat) : Prop :=
  (∃ d ∈ ds, agreesBelow d.rom r j ∧ idbit d.rom j = false) ∧ (∃ d ∈ ds, agreesBelow d.rom r j ∧ idbit d.rom j = true)

/-- The loop of a pass among the devices `ds`, from position `i` to 64: it completes; its path is the identity of one of
them; at a fork the bit is that of R153; the position remembered is the highest fork where it took 0. -/
theorem searchLoop_reference (c : Config) (ds : List Device) (fork : Nat) (prev : Ident) (n i nf : Nat) (l : Line)
    (buf : Ident) (hi : 1 ≤ i) (hn : i + n = 65) (he : l.env = .reference ⟨ds.map (Device.before buf i), false, true⟩)
    (hex : ∃ d ∈ ds, agreesBelow d.rom buf i) :
    ∃ (r : LoopResult) (nf' : Nat), searchLoop c fork prev (List.range' i n) nf l buf = r ∧ r.ending = .complete nf' ∧
      (∀ j, 1 ≤ j → j < i → idbit r.id j = idbit buf j) ∧ (∃ d ∈ ds, d.rom = r.id) ∧
      (∃ ds', r.line.env = .reference ⟨ds', false, true⟩ ∧ ds'.map Device.rom = ds.map Device.rom) ∧
      (∀ j, i ≤ j → j < 65 → forkAt ds r.id j →
        idbit r.id j = if j < fork then idbit prev j else decide (j = fork)) ∧
      (∀ j, i ≤ j → j < 65 → forkAt ds r.id j → idbit r.id j = false → j ≤ nf') ∧
      ((nf' = nf ∧ ∀ j, i ≤ j → j < 65 → ¬ (forkAt ds r.id j ∧ idbit r.id j = false)) ∨
        (i ≤ nf' ∧ nf' < 65 ∧ forkAt ds r.id nf' ∧ idbit r.id nf' = false)) := by
  induction n generalizing i nf l buf with
  | zero =>
    refine ⟨_, nf, rfl, rfl, fun _ _ _ => rfl, ?_, ?_, fun j a b => by omega, fun j a b => by omega,
      .inl ⟨rfl, fun j a b => by omega⟩⟩
    · obtain ⟨d, hd, h⟩ := hex
      exact ⟨d, hd, ident_ext_idbit (fun j a b => h j (by omega) a)⟩
    · exact ⟨_, he, by simp [Device.before, Function.comp_def]⟩
  | succ n ih =>
    obtain ⟨ha, hb, hw⟩ := triplet_spec c ds buf i hi (by omega) l he
    rw [List.range'_succ]
    unfold searchLoop
    dsimp only
    generalize (readBit c l).1 = a at *
    generalize hrb : readBit c (readBit c l).2 = rb at *
    obtain ⟨b, lb⟩ := rb
    dsimp only at *
    obtain ⟨d0, hd0, hag0⟩ := hex
    have hnb : (a && b) = false := by
      cases ha' : a <;> cases hb' : b <;> try rfl
      have h1 := ha.mp ha' d0 hd0 hag0
      have h2 := hb.mp hb' d0 hd0 hag0
      rw [h1] at h2
      cases h2
    simp only [hnb, Bool.false_eq_true, if_false]
    generalize hch : chooseBit i fork prev nf a b = ch
    have hc1 : ch.1 = chosenBit fork prev i a b := by rw [← hch, chooseBit_fst]
    have hc2 : ch.2 = if a = b ∧ ch.1 = false then i else nf := by rw [← hch]; exact chooseBit_snd ..
    have hexn : ∃ d ∈ ds, agreesBelow d.rom (setIdbit buf i ch.1) (i + 1) := by
      have hs : ∀ d : Device, agreesBelow d.rom (setIdbit buf i ch.1) (i + 1) ↔
          agreesBelow d.rom buf i ∧ idbit d.rom i = ch.1 := by
        intro d
        rw [agreesBelow_succ _ _ _ hi, agreesBelow_setIdbit _ _ _ _ hi (by omega),
          idbit_setIdbit _ _ _ _ hi (by omega) hi, if_pos rfl]
      simp only [hs]
      by_contra hno
      push Not at hno
      cases hv : ch.1
      · have hat : a = true := ha.mpr (fun d hd h => by have := hno d hd h; rw [hv] at this; simpa using this)
        have hbf : b = false := by rw [hat] at hnb; simpa using hnb
        rw [hc1] at hv
        simp [chosenBit, hat, hbf] at hv
      · have hbt : b = true := hb.mpr (fun d hd h => by have := hno d hd h; rw [hv] at this; simpa using this)
        have haf : a = false := by rw [hbt] at hnb; simpa using hnb
        rw [hc1] at hv
        simp [chosenBit, hbt, haf] at hv
    obtain ⟨r, nf', hr, hend, hlow, hmem, henv, hfork, hopen, hnf⟩ :=
      ih (i + 1) ch.2 (writeBit c ch.1 lb) (setIdbit buf i ch.1) (by omega) (by omega) (hw ch.1) hexn
    have hlow' : ∀ j, 1 ≤ j → j < i → idbit r.id j = idbit buf j := by
      intro j h1 h2
      rw [hlow j h1 (by omega), idbit_setIdbit _ _ _ _ hi (by omega) h1, if_neg (by omega)]
    have hbit : idbit r.id i = ch.1 := by
      rw [hlow i hi (by omega), idbit_setIdbit _ _ _ _ hi (by omega) hi]
      simp
    have hagr : ∀ x, agreesBelow x r.id i ↔ agreesBelow x buf i := by
      intro x
      constructor <;> intro h j h1 h2
      · rw [← hlow' j h2 h1]; exact h j h1 h2
      · rw [hlow' j h2 h1]; exact h j h1 h2
    have hfi : forkAt ds r.id i ↔ a = false ∧ b = false := by
      unfold forkAt
      simp only [hagr]
      have ha2 : a = false ↔ ∃ d ∈ ds, agreesBelow d.rom buf i ∧ idbit d.rom i = false := by
        rw [← Bool.not_eq_true, ha]; push Not; simp
      have hb2 : b = false ↔ ∃ d ∈ ds, agreesBelow d.rom buf i ∧ idbit d.rom i = true := by
        rw [← Bool.not_eq_true, hb]; push Not; simp
      rw [ha2, hb2]
    refine ⟨r, nf', hr, hend, hlow', hmem, henv, ?_, ?_, ?_⟩
    · intro j h1 h2 hf
      by_cases hj : j = i
      · subst hj
        obtain ⟨h3, h4⟩ := hfi.mp hf
        rw [hbit, hc1]
        simp only [chosenBit, h3, h4]
        simp
      · exact hfork j (by omega) h2 hf
    · intro j h1 h2 hf hz
      by_cases hj : j = i
      · subst hj
        obtain ⟨h3, h4⟩ := hfi.mp hf
        have : ch.2 = j := by rw [hc2, if_pos ⟨by rw [h3, h4], by rw [← hbit]; exact hz⟩]
        rcases hnf with ⟨h, _⟩ | ⟨h, _⟩ <;> omega
      · exact hopen j (by omega) h2 hf hz
    · rcases hnf with ⟨h, hno⟩ | ⟨h1, h2, h3⟩
      · by_cases hq : a = b ∧ ch.1 = false
        · rw [hc2, if_pos hq] at h
          subst h
          refine .inr ⟨le_refl _, by omega, hfi.mpr ?_, by rw [hbit]; exact hq.2⟩
          rw [← hq.1, Bool.and_self] at hnb
          exact ⟨hnb, by rw [← hq.1]; exact hnb⟩
        · rw [hc2, if_neg hq] at h
          refine .inl ⟨h, fun j h1 h2 => ?_⟩
          by_cases hj : j = i
          · subst hj
            rintro ⟨h3, h4⟩
            apply hq
            obtain ⟨h5, h6⟩ := hfi.mp h3
            exact ⟨by rw [h5, h6], by rw [← hbit]; exact h4⟩
          · exact hno j (by omega) h2
      · exact .inr ⟨by omega, h2, h3⟩

end Sys2Proof.Machine
end

