-- ==== Sys2Proof/Laws/Tick.lean ====
section
/-!
SUPPORT. What the tick agent and the synchroniser can do to the tick group, said once.
-/
namespace Sys2Proof.Machine

/-- A held tick is served, or nothing happens. -/
theorem serveHeld_cases (w : Nat) (t : TickState) :
    (t.tie = true ∧ t.tpend = true ∧ serveHeld w t = isrAction w { t with tpend := false }) ∨
    ((t.tie = true → t.tpend = false) ∧ serveHeld w t = t) := by
  unfold serveHeld
  cases h1 : t.tie <;> cases h2 : t.tpend <;> simp

@[simp] theorem serveHeld_tie (w : Nat) (t : TickState) : (serveHeld w t).tie = t.tie := by
  rcases serveHeld_cases w t with ⟨_, _, h⟩ | ⟨_, h⟩ <;> simp [h]

@[simp] theorem serveHeld_sec (w : Nat) (t : TickState) : (serveHeld w t).sec = t.sec := by
  rcases serveHeld_cases w t with ⟨_, _, h⟩ | ⟨_, h⟩ <;> simp [h]

@[simp] theorem serveHeld_snap (w : Nat) (t : TickState) : (serveHeld w t).snap = t.snap := by
  rcases serveHeld_cases w t with ⟨_, _, h⟩ | ⟨_, h⟩ <;> simp [h]

/-- After serving, no tick is held while the interrupt is enabled (44_tick_sync.md R177 (h)). -/
theorem serveHeld_tpend (w : Nat) (t : TickState) :
    (serveHeld w t).tpend = true → (serveHeld w t).tie = false := by
  rcases serveHeld_cases w t with ⟨_, _, h⟩ | ⟨h', h⟩ <;> rw [h]
  · simp
  · cases h1 : t.tie
    · simp
    · simp [h' h1]

/-- The counter moves only where a held tick is served. -/
theorem serveHeld_tick (w : Nat) (t : TickState) :
    (serveHeld w t).tick = t.tick ∨
    (t.tie = true ∧ t.tpend = true ∧ (serveHeld w t).tick = BitVec.ofNat 16 ((t.tick.toNat + 1) % w)) := by
  rcases serveHeld_cases w t with ⟨h1, h2, h⟩ | ⟨_, h⟩ <;> rw [h]
  · exact .inr ⟨h1, h2, rfl⟩
  · exact .inl rfl

/-- The next value of the counter, as a number, under an admitted window (R171). -/
theorem isrAction_tick_toNat {w : Nat} (hw : 0 < w) (hw' : w ≤ 2 ^ 16) (t : TickState) :
    (isrAction w t).tick.toNat = (t.tick.toNat + 1) % w := by
  have : (t.tick.toNat + 1) % w < w := Nat.mod_lt _ hw
  simp only [isrAction_tick, BitVec.toNat_ofNat]
  exact Nat.mod_eq_of_lt (by omega)

/-- The window of a configuration of this block, as the numbers the counter is computed with (R8). -/
theorem admitted_window {c : Config} (h : c.Admitted) : 2 ≤ c.tickWindow ∧ c.tickWindow ≤ 2 ^ 16 := by
  obtain ⟨⟨h1, h2⟩, -, -, -, -, h3, -⟩ := h
  rw [h3] at h2
  exact ⟨h1, h2⟩

/-- `SYNC` on the tick group, its section with `TIE = 0` folded away. -/
theorem syncTicks_eq (w : Nat) (t : TickState) :
    syncTicks w t =
      (t.tf, serveHeld w { t with
        tf := false
        snap := if t.tf then t.tick else t.snap
        sec := if t.tf = true ∧ t.tick = 0#16 then t.sec + 1#32 else t.sec }) := by
  unfold syncTicks syncLeave syncConsume syncEnter
  obtain ⟨tie, tf, tpend, tick, snap, sec⟩ := t
  cases tf <;> simp

end Sys2Proof.Machine
end

