-- ==== Sys2Proof/Laws/TickRuns.lean ====
section
/-!
SUPPORT. What one port event can do to the tick group, in the terms in which runs are counted (Safety.lean): a `SYNC`, an
event in which the interrupt action runs, any other event.
-/
namespace Sys2Proof.Machine

/-- Only `SYNC` among the commands touches the tick group (44_tick_sync.md R175, 20_memory.md R72). -/
theorem effect_ticks {i : Instr} (h : i ≠ .sync) (s : State) : (effect i s).ticks = s.ticks := by
  cases i <;> unfold effect <;> dsimp only
  case srchPass =>
    obtain ⟨_, _, _, _, _, _, _, _, _, h⟩ := searchPass_writes false s
    rw [h]
  case srchPassA =>
    obtain ⟨_, _, _, _, _, _, _, _, _, h⟩ := searchPass_writes true s
    rw [h]
  case sync => exact absurd rfl h
  case crcId => unfold acceptIfZero; split <;> rfl
  case busReset => unfold unlessHeld busResetBody; dsimp only; split; · rfl
                   split <;> rfl
  case matchId => unfold unlessHeld matchIdBody; dsimp only; split; · rfl
                  split <;> rfl
  all_goals try unfold unlessHeld
  all_goals try split
  all_goals rfl

/-- A host write to `CMD` is a `SYNC`, or leaves the tick group. -/
theorem cmdEffect_ticks (v : Byte) (s : State) :
    (v = 0x40#8 ∧ cmdEffect v s = syncState { s with cmd := v }) ∨
    (v ≠ 0x40#8 ∧ (cmdEffect v s).ticks = s.ticks) := by
  by_cases hv : v = 0x40#8
  · subst hv; exact .inl ⟨rfl, rfl⟩
  · refine .inr ⟨hv, ?_⟩
    unfold cmdEffect
    split
    · rename_i i hd
      have hi : i ≠ .sync := by
        rintro rfl
        have : ∀ v : Byte, decode v = .ok .sync → v = 0x40#8 := by
          intro v hd
          have key : ∀ v : Byte, (match decode v with | .ok .sync => decide (v = 0x40#8) | _ => true) = true := by
            decide +kernel
          have := key v
          rw [hd] at this
          simpa using this
        exact hv (this v hd)
      rw [effect_ticks hi]
    · rfl

/-- What a port event can do to the tick group. -/
theorem portEvent_ticks {e : PortEvent} {s t : State} (h : portEvent e s = .next t) :
    t.cfg = s.cfg ∧
    ((e = cmd .sync ∧ t.data = zext8 s.ticks.tf ∧ t.ticks = (syncTicks s.cfg.tickWindow s.ticks).2 ∧
        runsAction s e = (s.ticks.tpend && s.ticks.tie)) ∨
     (e ≠ cmd .sync ∧ runsAction s e = true ∧ t.ticks.tf = true ∧ t.ticks.sec = s.ticks.sec ∧
        t.ticks.tick = (isrAction s.cfg.tickWindow s.ticks).tick) ∨
     (e ≠ cmd .sync ∧ runsAction s e = false ∧ t.ticks.tf = s.ticks.tf ∧ t.ticks.sec = s.ticks.sec ∧
        t.ticks.tick = s.ticks.tick)) := by
  have hsync : cmd .sync = .access (.write 0x00 1 0x40#8) := rfl
  rw [hsync]
  rcases portEvent_cases h with ⟨v, rfl, rfl⟩ | ⟨off, v, rfl, h0, -, rfl⟩ | ⟨off, rfl, -, rfl⟩ | ⟨rfl, rfl⟩
  · refine ⟨(cmdEffect_keeps v s).1, ?_⟩
    rcases cmdEffect_ticks v s with ⟨rfl, h⟩ | ⟨hv, h⟩
    · exact .inl ⟨rfl, by rw [h]; simp [syncState, syncTicks_eq], by rw [h]; rfl, by simp [runsAction]⟩
    · refine .inr (.inr ⟨by simpa using hv, by simp [runsAction, hv], ?_⟩)
      rw [h]; exact ⟨rfl, rfl, rfl⟩
  · have hne : PortEvent.access (.write off 1 v) ≠ .access (.write 0x00 1 0x40#8) := by simp [h0]
    by_cases h20 : off = 0x20
    · subst h20
      refine ⟨rfl, .inr ?_⟩
      show _ ∨ _ ∧ _ ∧ (writeTctrl s.cfg.tickWindow v s.ticks).tf = _ ∧ _
      rcases serveHeld_cases s.cfg.tickWindow { s.ticks with tie := v.getLsbD 0 } with ⟨h1, h2, h3⟩ | ⟨h1, h3⟩
      · refine .inl ⟨hne, ?_, ?_⟩
        · simp only [runsAction]
          rw [show s.ticks.tpend = true from h2, show v.getLsbD 0 = true from h1]
          rfl
        · show (serveHeld _ _).tf = _ ∧ (serveHeld _ _).sec = _ ∧ (serveHeld _ _).tick = _
          rw [h3]; exact ⟨rfl, rfl, rfl⟩
      · refine .inr ⟨hne, ?_, ?_⟩
        · simp only [runsAction]
          cases hb : v.getLsbD 0 <;> simp
          exact h1 hb
        · show (serveHeld _ _).tf = _ ∧ (serveHeld _ _).sec = _ ∧ (serveHeld _ _).tick = _
          rw [h3]; exact ⟨rfl, rfl, rfl⟩
    · rcases writeReg_cases off v s with ⟨d, k, b, hw⟩ | ⟨h, -⟩
      · rw [hw]
        exact ⟨rfl, .inr (.inr ⟨hne, by simp [runsAction, h0, h20], rfl, rfl, rfl⟩)⟩
      · exact absurd h h20
  · exact ⟨rfl, .inr (.inr ⟨by simp, rfl, rfl, rfl, rfl⟩)⟩
  · refine ⟨rfl, .inr ?_⟩
    unfold timerTick timerEvent
    cases ht : s.ticks.tie
    · exact .inr ⟨by simp, by simp [runsAction, ht], rfl, rfl, rfl⟩
    · exact .inl ⟨by simp, by simp [runsAction, ht], rfl, rfl, rfl⟩

end Sys2Proof.Machine
end

