-- ==== Sys2Proof/Laws/Trace.lean ====
section
/-!
SUPPORT. What a line procedure, a command and a host write to `CMD` can do to the history: they add events in which every
sample comes directly after a release, and they leave the line at most as asserted as it was.
-/
namespace Sys2Proof.Machine

/-- Two histories whose samples follow releases make one when joined. -/
theorem samplesFollowRelease_append (a b : List LineEvent) (ha : samplesFollowRelease a = true)
    (hb : samplesFollowRelease b = true) : samplesFollowRelease (a ++ b) = true := by
  induction a using samplesFollowRelease.induct with
  | case1 => simpa
  | case2 v t rest ih =>
    simp only [samplesFollowRelease, List.cons_append] at ha ih ⊢
    exact ih ha
  | case3 v rest h => rw [samplesFollowRelease.eq_3 _ _ h] at ha; simp at ha
  | case4 x rest h1 h2 ih =>
    have key : ∀ r, samplesFollowRelease (x :: r) = samplesFollowRelease r := by
      intro r
      cases x <;> simp [samplesFollowRelease] at h1 h2 ⊢
    rw [List.cons_append, key]
    rw [key] at ha
    exact ih ha

/-- The later line adds to the history of the earlier one, every new sample after a release, and asserts the line only if
the earlier one did. -/
def Line.Extends (l l' : Line) : Prop :=
  (∃ new, l'.trace = new ++ l.trace ∧ samplesFollowRelease new = true) ∧ (l'.dqLow = l.dqLow ∨ l'.dqLow = false)

theorem extends_refl (l : Line) : Line.Extends l l := ⟨⟨[], rfl, rfl⟩, .inl rfl⟩

theorem extends_trans {a b d : Line} (h : Line.Extends a b) (h' : Line.Extends b d) : Line.Extends a d := by
  obtain ⟨⟨n, e, s⟩, x⟩ := h
  obtain ⟨⟨m, e', s'⟩, x'⟩ := h'
  refine ⟨⟨m ++ n, by rw [e', e, List.append_assoc], samplesFollowRelease_append _ _ s' s⟩, ?_⟩
  rcases x' with x' | x' <;> rcases x with x | x <;> simp [x, x']

theorem writeBit_extends (c : Config) (b : Bool) (l : Line) : Line.Extends l (writeBit c b l) :=
  ⟨⟨_, writeBit_trace _ _ _, by cases b <;> rfl⟩, .inr (by simp)⟩

theorem readBit_extends (c : Config) (l : Line) : Line.Extends l (readBit c l).2 :=
  ⟨⟨_, readBit_trace _ _, rfl⟩, .inr (by simp)⟩

theorem busReset_extends (c : Config) (l : Line) : Line.Extends l (busReset c l).2 :=
  ⟨⟨_, busReset_trace _ _, by cases (busReset c l).1 <;> rfl⟩, .inr (by simp)⟩

theorem foldl_extends {α : Type} (f : Line → α → Line) (h : ∀ l a, Line.Extends l (f l a)) (as : List α) (l : Line) :
    Line.Extends l (as.foldl f l) := by
  induction as generalizing l with
  | nil => exact extends_refl _
  | cons a as ih => exact extends_trans (h l a) (ih _)

theorem writeByte_extends (c : Config) (v : Byte) (l : Line) : Line.Extends l (writeByte c v l) :=
  foldl_extends _ (fun l _ => writeBit_extends c _ l) _ _

theorem writeIdent_extends (c : Config) (buf : Ident) (l : Line) : Line.Extends l (writeIdent c buf l) :=
  foldl_extends _ (fun l _ => writeByte_extends c _ l) _ _

theorem readBits_extends (c : Config) (ks : List Nat) (v : Byte) (l : Line) : Line.Extends l (readBits c ks v l).2 := by
  induction ks generalizing v l with
  | nil => exact extends_refl _
  | cons k ks ih => exact extends_trans (readBit_extends c l) (ih _ _)

theorem searchLoop_extends (c : Config) (fork : Nat) (prev : Ident) (is : List Nat) (nf : Nat) (l : Line) (buf : Ident) :
    Line.Extends l (searchLoop c fork prev is nf l buf).line := by
  induction is generalizing nf l buf with
  | nil => exact extends_refl _
  | cons i is ih =>
    unfold searchLoop
    dsimp only
    split
    · exact extends_trans (readBit_extends c l) (readBit_extends _ _)
    · exact extends_trans (extends_trans (extends_trans (readBit_extends c l) (readBit_extends _ _))
        (writeBit_extends _ _ _)) (ih _ _ _)

theorem searchPass_extends (alarm : Bool) (s : State) : Line.Extends s.line (searchPass alarm s).line := by
  unfold searchPass unlessHeld
  split
  · exact extends_refl _
  unfold searchPassBody
  split
  · exact extends_refl _
  dsimp only
  split
  · unfold searchBody
    dsimp only
    generalize hr : searchLoop _ _ _ _ _ _ _ = r
    have h1 : Line.Extends (writeByte s.cfg (searchByte s.cfg alarm) (busReset s.cfg s.line).2) r.line := by
      rw [← hr]; exact searchLoop_extends ..
    have h2 := extends_trans (extends_trans (busReset_extends s.cfg s.line) (writeByte_extends _ _ _)) h1
    clear h1
    split
    · simpa using h2
    · unfold finishPass acceptIfZero
      split <;> cases alarm <;> simpa [countAccepted, raiseCrcMismatch] using h2
  · simpa using busReset_extends _ _

/-- Every command. -/
theorem effect_extends (i : Instr) (s : State) : Line.Extends s.line (effect i s).line := by
  cases i <;> unfold effect <;> dsimp only
  case srchPass => exact searchPass_extends _ _
  case srchPassA => exact searchPass_extends _ _
  case spuOn => exact ⟨⟨[.spu true], rfl, rfl⟩, .inl rfl⟩
  case spuOff => exact ⟨⟨[.spu false], rfl, rfl⟩, .inl rfl⟩
  case crcId => unfold acceptIfZero; split <;> exact extends_refl _
  all_goals try exact extends_refl _
  all_goals unfold unlessHeld; split; exact extends_refl _
  · unfold busResetBody; dsimp only; split <;> simpa using busReset_extends _ _
  · simpa using writeBit_extends _ _ _
  · simpa [readBitBody] using readBit_extends _ _
  · simpa using writeByte_extends _ _ _
  · simpa [readByteBody, readByte] using readBits_extends _ _ _ _
  · unfold matchIdBody
    dsimp only
    split
    · simpa using extends_trans (extends_trans (busReset_extends _ _) (writeByte_extends _ _ _)) (writeIdent_extends _ _ _)
    · simpa using busReset_extends _ _

/-- Every host write to `CMD`. -/
theorem cmdEffect_extends (v : Byte) (s : State) : Line.Extends s.line (cmdEffect v s).line := by
  unfold cmdEffect
  split
  · simpa using effect_extends _ { s with cmd := v }
  · exact extends_refl _

end Sys2Proof.Machine
end

