-- ==== Sys2Proof/Tests/Slice0.lean ====
section
/-!
SUPPORT. Tests: the checks of WellFormed, decoding, single steps with expected values from spec/95_test_vectors.md (the
vector's name stands in each docstring), and for every statement with hypotheses states and operands that meet them.
-/
namespace Sys2Proof.Tests
open Sys2Proof.Machine
set_option Elab.async false

/-! ### Helpers -/

/-- The nominal configuration with the two open parameters given, so that whole states can be compared. -/
def build : Config := { Config.nominal with owtBase := 0x4000, tTick := 1000 }

/-- The reset state of that build. -/
def base : State := State.resetWith build

/-- The state of an outcome; the second case does not arise in a test. -/
def after : Host.Outcome State Fault Refusal → State
  | .next t => t
  | _ => base

/-- The state a command leaves. -/
def run (i : Instr) (s : State) : State := after (exec i s)

/-- A device that has not seen a reset pulse yet. -/
def device (rom : Ident) (alarm : Bool := false) : Device := ⟨rom, alarm, .idle⟩

/-- The reset state on a line with these devices. -/
def bus (ds : List Device) : State :=
  { base with line := { Line.reset with env := .reference ⟨ds, false, true⟩ } }

/-- The reset state on a line stuck low. -/
def stuck : State := { base with line := { Line.reset with env := .reference ⟨[], true, true⟩ } }

/-- The reset state on a line whose next samples are given. -/
def answering (bs : List Bool) : State := { base with line := { Line.reset with env := .scripted bs } }

/-- The reset state with one input to come. -/
def awaiting (x : Input) : State := { base with inputs := [x] }

/-- The reset state with the tick group `TIE`, `TF`, `TPEND`, `TICK`, `SNAP`, `SEC` and a window. -/
def ticking (w : Nat) (t : TickState) : State :=
  { State.resetWith { build with tickWindow := w } with ticks := t }

/-- The identities A, B and C of the vectors. -/
def romA : Ident := #v[0x28, 0x01, 0, 0, 0, 0, 0, 0x29]
def romB : Ident := #v[0x28, 0x02, 0, 0, 0, 0, 0, 0x70]
def romC : Ident := #v[0x10, 0x03, 0, 0, 0, 0, 0, 0xA2]

/-- A cursor as `SRCH_START` leaves it. -/
def started (s : State) : State := { s with fork := 65 }

/-! ### WellFormed: each check refuses an ill-formed term -/

theorem test_fam_too_wide : (⟨16, 0⟩ : CmdFields).fits = false := by decide
theorem test_fn_too_wide : (⟨1, 16⟩ : CmdFields).wellFormed = false := by decide
theorem test_fam_zero : (⟨0, 0⟩ : CmdFields).famDefined = false := by decide
theorem test_fam_six : (⟨6, 0⟩ : CmdFields).wellFormed = false := by decide
theorem test_fn_past_bus_family : (⟨1, 8⟩ : CmdFields).fnDefined = false := by decide
theorem test_fn_past_crc_family : (⟨2, 2⟩ : CmdFields).wellFormed = false := by decide
theorem test_discovery_upper_bits : (⟨3, 4⟩ : CmdFields).wellFormed = false := by decide
theorem test_fn_past_tick_family : (⟨4, 1⟩ : CmdFields).wellFormed = false := by decide
theorem test_fn_past_flags_family : (⟨5, 2⟩ : CmdFields).wellFormed = false := by decide
theorem test_good_fields : (⟨1, 7⟩ : CmdFields).wellFormed = true := by decide

/-! ### Decoding: every word of the opcode table written out, `fam` in bits 7:4 and `fn` in bits 3:0 -/

theorem test_decode_busReset : decode 0b00010000 = .ok .busReset := rfl
theorem test_decode_writeBit : decode 0b00010001 = .ok .writeBit := rfl
theorem test_decode_readBit : decode 0b00010010 = .ok .readBit := rfl
theorem test_decode_writeByte : decode 0b00010011 = .ok .writeByte := rfl
theorem test_decode_readByte : decode 0b00010100 = .ok .readByte := rfl
theorem test_decode_matchId : decode 0b00010101 = .ok .matchId := rfl
theorem test_decode_spuOn : decode 0b00010110 = .ok .spuOn := rfl
theorem test_decode_spuOff : decode 0b00010111 = .ok .spuOff := rfl
theorem test_decode_crcStep : decode 0b00100000 = .ok .crcStep := rfl
theorem test_decode_crcId : decode 0b00100001 = .ok .crcId := rfl
theorem test_decode_srchStart : decode 0b00110000 = .ok .srchStart := rfl
theorem test_decode_srchStartA : decode 0b00110001 = .ok .srchStartA := rfl
theorem test_decode_srchPass : decode 0b00110010 = .ok .srchPass := rfl
theorem test_decode_srchPassA : decode 0b00110011 = .ok .srchPassA := rfl
theorem test_decode_sync : decode 0b01000000 = .ok .sync := rfl
theorem test_decode_setRdy : decode 0b01010000 = .ok .setRdy := rfl
theorem test_decode_clrErr : decode 0b01010001 = .ok .clrErr := rfl

/-- E2: the values next to each family are rejected by name. -/
theorem test_decode_rejects : decode 0x18 = .error (.illegalOpcode 0x18) ∧ decode 0x22 = .error (.illegalOpcode 0x22) ∧
    decode 0x34 = .error (.illegalOpcode 0x34) ∧ decode 0x41 = .error (.illegalOpcode 0x41) ∧
    decode 0x52 = .error (.illegalOpcode 0x52) ∧ decode 0xFF = .error (.illegalOpcode 0xFF) := ⟨rfl, rfl, rfl, rfl, rfl, rfl⟩

theorem test_decode_no_byte : decodeBytes [] = .error .noByte := rfl
theorem test_table_word : decodeTableWord 8 0x32 = some .srchPass := by decide
theorem test_table_word_illegal : decodeTableWord 8 0x00 = none := by decide

/-- The next step from a placed word is the host's write of it. -/
theorem test_fetch_word : (after (step (State.reset.withFetchWord 8 0x16))).spu = true ∧
    (after (step (State.reset.withFetchWord 8 0x16))).cmd = 0x16 := by decide

/-! ### Bus transport -/

/-- B1. -/
theorem test_busReset_presence : (run .busReset (bus [device romA])).res = 0x00 ∧
    (run .busReset (bus [device romA])).line.trace = [.rel 410, .smp false, .rel 70, .low 480] := by decide +kernel

/-- B2. -/
theorem test_busReset_no_device : (run .busReset (bus [])).res = 0x01 ∧ (run .busReset (bus [])).flags = 0x08 ∧
    (run .busReset (bus [])).line.trace = [.smp true, .rel 70, .low 480] := by decide +kernel

/-- B7: only bit 0 counts. -/
theorem test_writeBit_zero : (run .writeBit { bus [] with data := 0xFE }).line.trace = [.rel 10, .low 60] := by
  decide +kernel

/-- B5. -/
theorem test_writeBit_one : (run .writeBit { bus [] with data := 0x01 }).line.trace = [.rel 64, .low 6] := by
  decide +kernel

/-- B8. -/
theorem test_readBit_high : (run .readBit (bus [])).data = 0x01 ∧
    (run .readBit (bus [])).line.trace = [.rel 55, .smp true, .rel 9, .low 6] := by decide +kernel

/-- B9: all eight bits are overwritten. -/
theorem test_readBit_low : (run .readBit { stuck with data := 0xFF }).data = 0x00 := by decide +kernel

/-- B10: 0xCC is the bits 0,0,1,1,0,0,1,1. -/
theorem test_writeByte_low_bit_first : (run .writeByte { bus [] with data := 0xCC }).line.trace =
    [.rel 64, .low 6, .rel 64, .low 6, .rel 10, .low 60, .rel 10, .low 60,
     .rel 64, .low 6, .rel 64, .low 6, .rel 10, .low 60, .rel 10, .low 60] := by decide +kernel

/-- B12. -/
theorem test_readByte_low_bit_first :
    (run .readByte (answering [true, false, false, false, true, false, true, false])).data = 0x51 := by decide +kernel

/-- B15: A is selected, B is idle; 148 events, 6000 µs. -/
theorem test_matchId_selects :
    (run .matchId { bus [device romA, device romB] with id := romA }).line.env =
      .reference ⟨[⟨romA, false, .selected⟩, ⟨romB, false, .idle⟩], false, true⟩ ∧
    (run .matchId { bus [device romA, device romB] with id := romA }).line.trace.length = 148 ∧
    traceTime (run .matchId { bus [device romA, device romB] with id := romA }).line.trace = 6000 := by decide +kernel

/-- B17. -/
theorem test_matchId_no_device : (run .matchId { bus [] with id := romA }).res = 0x01 ∧
    (run .matchId { bus [] with id := romA }).line.trace = [.smp true, .rel 70, .low 480] := by decide +kernel

/-- B18. -/
theorem test_spuOn : readReg (run .spuOn (bus [])) 0x04 = 0x01 ∧ (run .spuOn (bus [])).line.trace = [.spu true] := by
  decide +kernel

/-- B20. -/
theorem test_spuOff : readReg (run .spuOff { bus [] with spu := true }) 0x04 = 0x00 ∧
    (run .spuOff { bus [] with spu := true }).line.trace = [.spu false] := by decide +kernel

/-- B19, X5. -/
theorem test_held_off : ∀ i ∈ lineCommands, run i { bus [] with spu := true } = { bus [] with spu := true, res := 0x04 } := by
  decide +kernel

/-! ### CRC -/

/-- Section 2.2. -/
theorem test_crcStep : (run .crcStep { bus [] with data := 0x02 }).crc = 0xBC := by decide +kernel

/-- Section 2.1: `Crc8Step(0x5E, 0x01)`. -/
theorem test_crcStep_running : (run .crcStep { bus [] with crc := 0x5E, data := 0x01 }).crc = 0x9A := by decide +kernel

/-- The example of 42_crc8.md R143. -/
theorem test_crcId_accepts : (run .crcId { bus [] with id := #v[0x02, 0x1C, 0xB8, 0x01, 0, 0, 0, 0xA2] }).res = 0x00 := by
  decide +kernel

/-- The same example with the checksum 0xA3. -/
theorem test_crcId_rejects : (run .crcId { bus [] with id := #v[0x02, 0x1C, 0xB8, 0x01, 0, 0, 0, 0xA3] }).res = 0x02 ∧
    (run .crcId { bus [] with id := #v[0x02, 0x1C, 0xB8, 0x01, 0, 0, 0, 0xA3] }).crc = 0x5E := by decide +kernel

/-! ### Discovery -/

/-- The example of 43_discovery.md R150. -/
theorem test_srchStart : readReg (run .srchStart { bus [] with cntN := 3, prev := romA }) 0x06 = 0x41 ∧
    (run .srchStart { bus [] with cntN := 3, prev := romA }).cntN = 0 ∧
    (run .srchStart { bus [] with cntN := 3, prev := romA }).prev = Ident.zero := by decide +kernel

/-- The example of R151: `CNT_N` is kept. -/
theorem test_srchStartA : (run .srchStartA { bus [] with cntN := 3, cntA := 5 }).cntN = 3 ∧
    (run .srchStartA { bus [] with cntN := 3, cntA := 5 }).cntA = 0 := by decide +kernel

/-- Section 4.3, pass 1. -/
theorem test_srchPass_first : (run .srchPass (started (bus [device romA, device romB]))).id = romB ∧
    (run .srchPass (started (bus [device romA, device romB]))).fork = 9 ∧
    (run .srchPass (started (bus [device romA, device romB]))).cntN = 1 ∧
    (run .srchPass (started (bus [device romA, device romB]))).line.trace.length = 660 := by decide +kernel

/-- Section 4.4, pass 3: below `FORK` with previous bit 1 nothing is recorded. -/
theorem test_srchPass_third :
    (run .srchPass { bus [device romA, device romB, device romC] with fork := 9, prev := romB, cntN := 2 }).id = romA ∧
    (run .srchPass { bus [device romA, device romB, device romC] with fork := 9, prev := romB, cntN := 2 }).fork = 0 ∧
    (run .srchPass { bus [device romA, device romB, device romC] with fork := 9, prev := romB, cntN := 2 }).cntN = 3 := by
  decide +kernel

/-- Section 4.7, pass 1: A is not in alarm. -/
theorem test_srchPassA_alarm :
    (run .srchPassA (started (bus [device romA, device romB true, device romC true]))).id = romC ∧
    (run .srchPassA (started (bus [device romA, device romB true, device romC true]))).fork = 4 ∧
    (run .srchPassA (started (bus [device romA, device romB true, device romC true]))).cntA = 1 := by decide +kernel

/-- Section 4.7, nobody in alarm. -/
theorem test_srchPassA_nobody : (run .srchPassA (started (bus [device romA]))).res = 0x01 ∧
    (run .srchPassA (started (bus [device romA]))).line.trace.length = 28 ∧
    traceTime (run .srchPassA (started (bus [device romA]))).line.trace = 1660 := by decide +kernel

/-- Section 4.10, rows 1, 3, 5, 8 and 11. -/
theorem test_forkDecision : forkDecision 9 65 Ident.zero 0 = (false, 9) ∧ forkDecision 4 9 romA 0 = (true, 0) ∧
    forkDecision 9 9 Ident.zero 4 = (true, 4) ∧ forkDecision 10 9 romB 0 = (false, 10) ∧
    forkDecision 64 65 Ident.zero 63 = (false, 64) := by decide +kernel

/-- X1: the cursor advances, nothing is accepted. -/
theorem test_srchPass_mismatch :
    (run .srchPass (started (bus [device #v[0x28, 0x01, 0, 0, 0, 0, 0, 0x2A]]))).res = 0x02 ∧
    (run .srchPass (started (bus [device #v[0x28, 0x01, 0, 0, 0, 0, 0, 0x2A]]))).crc = 0xE2 ∧
    (run .srchPass (started (bus [device #v[0x28, 0x01, 0, 0, 0, 0, 0, 0x2A]]))).fork = 0 := by decide +kernel

/-! ### Ticks -/

/-- T1: the second event is lost. -/
theorem test_tick_held : (timerTick (timerTick base)).ticks = { TickState.reset with tpend := true } := by decide

/-- T2: the write to `TCTRL` serves the held event. -/
theorem test_tctrl_serves : (writeReg 0x20 0x01 { base with ticks := { TickState.reset with tpend := true } }).ticks =
    { TickState.reset with tie := true, tf := true, tick := 1 } := by decide

/-- T14: `SEC` wraps. -/
theorem test_sync_sec_wraps : (run .sync (ticking 1000 ⟨true, true, false, 0, 7, 0xFFFFFFFF⟩)).ticks =
    ⟨true, false, false, 0, 0, 0⟩ := by decide +kernel

/-- T10: `SYNC` inside a section takes the earlier tick and serves nothing. -/
theorem test_sync_in_section : (run .sync (ticking 4 ⟨false, true, true, 1, 0, 1⟩)).ticks =
    ⟨false, false, true, 1, 1, 1⟩ := by decide +kernel

/-- T15: little-endian. -/
theorem test_tick_bytes : readReg (ticking 1000 ⟨true, false, false, 0x0102, 0, 0⟩) 0x21 = 0x02 ∧
    readReg (ticking 1000 ⟨true, false, false, 0x0102, 0, 0⟩) 0x22 = 0x01 := by decide +kernel

/-- The wrap of T4 with a window of 4. -/
theorem test_tick_wraps : (isrAction 4 ⟨true, false, false, 3, 3, 0⟩).tick = 0 := by decide

/-! ### Flags, register accesses, reset -/

/-- F3. -/
theorem test_setRdy_mask : (run .setRdy { bus [] with data := 0xFF }).flags = 0x07 := by decide +kernel

/-- F4. -/
theorem test_setRdy_clears_nothing : (run .setRdy { bus [] with flags := 0x07 }).flags = 0x07 := by decide +kernel

/-- F5. -/
theorem test_clrErr : (run .clrErr { bus [] with flags := 0x09 }).flags = 0x01 := by decide +kernel

/-- E3: an illegal opcode wins over the pull-up. -/
theorem test_illegal_first : after (writeCmd 0x34 { bus [] with spu := true }) =
    { bus [] with spu := true, cmd := 0x34, res := 0xFF } := by decide +kernel

/-- F8: a write to `FLAGS` is ignored. -/
theorem test_flags_read_only : after (step (awaiting (.port (wr 0x03 0xFF)))) = base := by decide +kernel

/-- Z2. -/
theorem test_blockReset : blockReset { base with spu := true, flags := 0x0F, cntN := 7, ticks := ⟨true, true, false, 9, 9, 5⟩ } =
    base := by decide

/-- Z3: abandoned in the 30th triplet, after 4 + 16 + 29 * 10 + 3 events. -/
theorem test_abandoned_pass :
    (after (step { started (bus [device romA]) with inputs := [.resetDuring 0x32 313] })).line.trace.length = 313 ∧
    (after (step { started (bus [device romA]) with inputs := [.resetDuring 0x32 313] })).fork = 0 := by decide +kernel

/-! ### Programs -/

/-- P2: `DISCOVER` with A and B. -/
theorem test_discover_two : (discover false 5 (bus [device romA, device romB])).ending = .finished 2 ∧
    (discover false 5 (bus [device romA, device romB])).delivered = [(romB, 0), (romA, 1)] := by decide +kernel

/-- 30_encoding.md R99, `PROBE`, with and without a device. -/
theorem test_probe : (probe (bus [device romA])).flags = 0x01 ∧ (probe (bus [])).flags = 0x08 := by decide +kernel

/-! ### Witnesses: for each statement, what meets its hypotheses, at the edges of its clauses -/

theorem witness_DecodeAndEncodeAgree : Instr.clrErr.wellFormed = true ∧ decode 0x51 = .ok .clrErr := ⟨rfl, rfl⟩

theorem witness_IllegalOpcodeOnlySetsResult : (awaiting (cmdInput 0x52)).inputs = cmdInput 0x52 :: [] ∧
    (∀ v ∈ [0x00, 0x0F, 0x18, 0x1F, 0x22, 0x2F, 0x34, 0x3F, 0x41, 0x4F, 0x52, 0xFF], illegalOpcode v = true) ∧
    ∀ v ∈ [0x10, 0x17, 0x20, 0x21, 0x30, 0x33, 0x40, 0x50, 0x51], illegalOpcode v = false := ⟨rfl, by decide, by decide⟩

theorem witness_StepRunsTheDecodedCommand : (awaiting (cmdInput 0x40)).inputs = cmdInput 0x40 :: [] ∧
    decode 0x40 = .ok .sync := ⟨rfl, rfl⟩

theorem witness_ReadReturnsTheMappedByte : (0x00, 0x00) ∈ registerTable base ∧
    (0x2F, 0x00) ∈ registerTable base ∧
    (awaiting (.port (rd 0x2F))).inputs = .port (.access (.read 0x2F 1)) :: [] := ⟨by decide, by decide, rfl⟩

theorem witness_WriteToReadOnlyOffsetIsIgnored :
    (∀ k ∈ [0x01, 0x03, 0x04, 0x06, 0x0F, 0x18, 0x1F, 0x21, 0x2F], readOnlyOffset k = true) ∧
    (awaiting (.port (wr 0x2F 0xFF))).inputs = .port (.access (.write 0x2F 1 0xFF)) :: [] := ⟨by decide, rfl⟩

theorem witness_WrittenByteReadsBack : (∀ k ∈ [0x02, 0x05, 0x10, 0x17], storingOffset k = true) ∧
    (awaiting (.port (wr 0x17 0xAB))).inputs = .port (.access (.write 0x17 1 0xAB)) :: [] := ⟨by decide, rfl⟩

/-- Each clause at the edges of its range: widths 0 and 2, the first offset above the space, the last one in it. -/
theorem witness_OnlyForeignAccessesStop :
    step (awaiting (.port (.access (.read 0x30 1)))) = .refused (.outsideBlock 0x30) ∧
    step (awaiting (.port (.access (.write 0x00 2 0x10)))) = .refused (.accessWidth 2) ∧
    step (awaiting (.port (.access (.read 0x30 0)))) = .refused (.accessWidth 0) ∧
    after (step (awaiting (.port (.access (.read 0x2F 1))))) = { base with reads := [0x00] } :=
  ⟨rfl, rfl, rfl, by decide +kernel⟩

theorem witness_ResetGivesTheTableOfValues :
    (awaiting (.blockReset [.timerTick])).inputs = .blockReset [.timerTick] :: [] := rfl

theorem witness_ResetLeavesTheLineAlone :
    ({ bus [device romA] with inputs := [.blockReset []] }).inputs = .blockReset [] :: [] := rfl

/-- Both clauses: cut after two of three events, and one asked for more events than there are. -/
theorem witness_AbandonedCommandLeavesOnlyItsEvents :
    (awaiting (.resetDuring 0x10 2)).inputs = .resetDuring 0x10 2 :: [] ∧
    (after (step { bus [] with inputs := [.resetDuring 0x10 2] })).line.trace = [.rel 70, .low 480] ∧
    (after (step { bus [] with inputs := [.resetDuring 0x10 9] })).line.trace = [.smp true, .rel 70, .low 480] := by
  decide +kernel

/-- `SPU = 0`, the hypothesis of the statements on one line command; B1 and B2 above are the two ends of `BUS_RESET`. -/
theorem witness_line_commands : (bus [device romA]).spu = false := rfl

theorem witness_PresenceMeansADevice : (bus [device romA]).line.env = .reference ⟨[device romA], false, true⟩ ∧
    (bus []).line.env = .reference ⟨[], false, true⟩ ∧ stuck.line.env = .reference ⟨[], true, true⟩ := ⟨rfl, rfl, rfl⟩

theorem witness_MatchSelectsExactlyTheNamedDevices :
    (bus [device romA]).line.env = .reference ⟨[device romA], false, true⟩ ∧ [device romA] ≠ [] ∧
    (bus [device romA]).cfg.cmdMatch ≠ (bus [device romA]).cfg.cmdSearch ∧
    (bus [device romA]).cfg.cmdMatch ≠ (bus [device romA]).cfg.cmdAlarm := by decide +kernel

theorem witness_StrongPullUpSwitches : base.line.dqLow = false := rfl

theorem witness_LineCommandsAreHeldOffByThePullUp : Instr.srchPassA ∈ lineCommands ∧ Instr.sync ∉ lineCommands ∧
    ({ base with spu := true }).spu = true := by decide

theorem witness_LineCommandsLeaveTheLineReleased : Instr.srchPass ∈ lineCommands ∧ (started (bus [])).fork ≠ 0#8 ∧
    (started (bus [])).spu = false := by decide +kernel

theorem witness_NoLowWhileThePullUpIsOn :
    after (step { awaiting (.port (cmd .busReset)) with spu := true }) =
      { base with spu := true, cmd := 0x10, res := 0x04 } := by decide +kernel

theorem witness_CrcStepFoldsData : (bus []).cfg.Admitted := by decide

/-- The checksum of the seven zero bytes, and one byte that is not it. -/
theorem witness_ExactlyOneChecksumByte : build.crcPoly = 0x8C#8 ∧ crc8 build (List.replicate 7 0 ++ [0x00]) = 0#8 ∧
    crc8 build (List.replicate 7 0 ++ [0x01]) ≠ 0#8 := by decide +kernel

/-- A fold of zero, at both ends of the range of positions. -/
theorem witness_SingleBitErrorIsCaught : build.crcPoly = 0x8C#8 ∧ crc8Ident build romA = 0#8 ∧
    crc8Ident build (setIdbit romA 1 (!idbit romA 1)) ≠ 0#8 ∧
    crc8Ident build (setIdbit romA 64 (!idbit romA 64)) ≠ 0#8 := by decide +kernel

theorem witness_PassWithoutCursorIsRefused : (bus [device romA]).spu = false ∧ (bus [device romA]).fork = 0#8 := ⟨rfl, rfl⟩

/-- The three ways: no device; nobody answering the first triplet; a whole pass, accepted (`test_srchPass_first`) or not
(`test_srchPass_mismatch`). -/
theorem witness_SearchPassEndsInOneOfThreeWays :
    (started (bus [])).spu = false ∧ (started (bus [])).fork ≠ 0#8 ∧
    (run .srchPass (started (bus []))).line.trace = [.smp true, .rel 70, .low 480] ∧
    (run .srchPassA (started (bus [device romA]))).id = Ident.zero := by decide +kernel

theorem witness_PassDependsOnlyOnTheCursor : (started (bus [device romA])).spu = false ∧
    (started (bus [device romA])).fork ≠ 0#8 ∧ (run .srchPass (started (bus [device romA]))).res ≠ 0x01#8 := by decide +kernel

theorem witness_StuckLowLineWalksTheBitStrings : (started stuck).line.env = .reference ⟨[], true, true⟩ ∧
    (started stuck).fork = 65#8 ∧ (started stuck).prev = Ident.zero ∧ (started stuck).cfg.crcInit = 0x00#8 ∧
    (started stuck).spu = false := by decide +kernel

theorem witness_AlarmPassWithNobodyInAlarmFaults :
    (started (bus [device romA])).line.env = .reference ⟨[device romA], false, true⟩ ∧
    (∀ d ∈ [device romA], d.alarm = false) ∧ (started (bus [device romA])).fork ≠ 0#8 ∧
    Config.nominal.cmdAlarm ≠ Config.nominal.cmdSearch := by decide +kernel

theorem witness_DiscoveryFindsEveryDeviceOnce : ([device romA, device romB].map Device.rom).Nodup ∧
    (∀ d ∈ [device romA, device romB], crc8Ident (bus []).cfg d.rom = 0#8) ∧ (bus []).cfg.forkStart = 65#8 ∧
    [device romA, device romB].length ≤ 2 ∧
    (bus []).line.env = .reference ⟨[], false, true⟩ := by decide +kernel

theorem witness_TimerEventCountsOrIsHeld : (awaiting (.port .timerTick)).inputs = .port .timerTick :: [] := rfl

theorem witness_TctrlWriteServesAHeldTick :
    (awaiting (.port (wr 0x20 0xFF))).inputs = .port (.access (.write 0x20 1 0xFF)) :: [] := rfl

theorem witness_PulseInsideSyncIsOrderedAfterIt :
    ∀ t ∈ [(⟨true, true, false, 0, 0, 0⟩ : TickState), ⟨false, true, true, 1, 0, 1⟩], t.tpend = true → t.tie = false := by
  decide

theorem witness_WindowOfTicksReturnsTheCounter : ({ build with tickWindow := 2 } : Config).Admitted ∧
    ({ build with tickWindow := 65536 } : Config).Admitted ∧
    (⟨true, true, false, 1, 0, 0⟩ : TickState).tick.toNat < 2 := by decide

/-- T13, the smallest admitted window; a second `SYNC`, and a tick that is held in a section. -/
theorem witness_OneSecondPerWindowWhenEveryTickIsTaken :
    ∀ es ∈ [tickThenSync ++ tickThenSync, tickThenSync ++ [cmd .sync] ++ [wr 0x20 0x00, .timerTick, wr 0x20 0x01, cmd .sync]],
      (ticking 2 ⟨true, false, false, 0, 0, 0⟩).cfg.Admitted ∧
      noneOvertaken es (ticking 2 ⟨true, false, false, 0, 0, 0⟩) = true ∧
      actionCount es (ticking 2 ⟨true, false, false, 0, 0, 0⟩) = 2 ∧
      (after (runPort es (ticking 2 ⟨true, false, false, 0, 0, 0⟩))).ticks = ⟨true, false, false, 0, 0, 1⟩ := by
  decide +kernel

/-- R177 (e): a tick that overtakes the one before it is seen as such. -/
theorem test_overtaken : noneOvertaken [.timerTick, .timerTick] (ticking 4 ⟨true, false, false, 0, 0, 0⟩) = false := by
  decide

/-- A tick to take, two pulses held in a section, and the `SYNC` after the section in which the next action has run. -/
theorem witness_EachTickIsTakenAtMostOnce : base.ticks.tpend = false ∧
    actionCount [wr 0x20 0x00, .timerTick, cmd .sync, .timerTick] (ticking 4 ⟨true, true, false, 1, 0, 0⟩) = 0 ∧
    reportCount [wr 0x20 0x00, .timerTick, cmd .sync, .timerTick] (ticking 4 ⟨true, true, false, 1, 0, 0⟩) = 1 ∧
    (after (runPort [wr 0x20 0x00, .timerTick, cmd .sync, .timerTick] (ticking 4 ⟨true, true, false, 1, 0, 0⟩))).ticks =
      ⟨false, false, true, 1, 1, 0⟩ := by decide +kernel

/-- A pulse between the read of `TCTRL` and the write that opens the section is counted, one inside is held. -/
theorem test_readTick_gap : (after (runPort [rd 0x20, .timerTick, wr 0x20 0x00, rd 0x21, .timerTick, rd 0x22]
    (ticking 1000 ⟨true, false, false, 0x00FF, 0, 0⟩))).reads = [0x01, 0x00, 0x01] := by decide +kernel

theorem witness_ProtectedSectionHoldsTheCounterStill : base.ticks.tie = false ∧
    after (step (awaiting (.port .timerTick))) = { base with ticks := { TickState.reset with tpend := true } } ∧
    after (step (awaiting (.port (wr 0x20 0xFE)))) = base ∧ (0xFE#8 &&& 1#8) = 0#8 := by decide +kernel

theorem witness_TimerPulseCommutesWithCommands : Instr.srchPass ≠ .sync := by decide

/-- A bus fault sets `BUS_ERR`, a refusal changes `RES` alone; `test_crcId_rejects` ends with a CRC mismatch. -/
theorem witness_EveryCommandEndsWithItsCode : (run .busReset (bus [])).res = 0x01#8 ∧
    run .crcId { base with id := setIdentByte Ident.zero 7 1, flags := 0x09 } =
      { base with id := setIdentByte Ident.zero 7 1, flags := 0x09, crc := crc8Step 0x8C 0 1, res := 0x02 } ∧
    run .srchPass (bus []) = { bus [] with res := 0x03 } := by decide +kernel

/-- `BUS_ERR` set by a bus fault, cleared by `CLR_ERR`; a readiness bit set by `SET_RDY` that stays. -/
theorem witness_FlagsChangeOnlyAsTheirTableSays :
    (after (step { bus [] with inputs := [cmdInput 0x10], flags := 0x01 })).flags = 0x09 ∧
    (after (step { bus [] with inputs := [cmdInput 0x51], flags := 0x09 })).flags = 0x01 ∧
    (after (step { bus [] with inputs := [cmdInput 0x50], data := 0xF4 })).flags = 0x04 := by decide +kernel

/-- Each clause: `SPU`, the cursor, `SEC`, `TIE` and `TICK` do change under the inputs named. -/
theorem witness_OnlyTheOwnersWrite : (after (step (awaiting (cmdInput 0x16)))).spu = true ∧
    (after (step (awaiting (cmdInput 0x30)))).fork = 65#8 ∧
    (after (step { ticking 4 ⟨true, true, false, 0, 0, 0⟩ with inputs := [cmdInput 0x40] })).ticks.sec = 1#32 ∧
    (after (step (awaiting (.port (wr 0x20 0x01))))).ticks.tie = true ∧
    (after (step { ticking 4 ⟨true, true, true, 0, 0, 0⟩ with inputs := [cmdInput 0x40] })).ticks.tick = 1#16 := by
  decide +kernel

theorem witness_HistoryGrowsAndParametersStay : step base = .next base := rfl

theorem witness_SamplesStayBehindReleases : samplesFollowRelease (run .busReset (bus [])).line.trace = true ∧
    samplesFollowRelease [.smp true] = false := by decide +kernel

/-- A whole pass, and the two bus faults: no presence, and (1, 1) at position 1. -/
theorem witness_NominalDurationsAreTheTable : (bus []).cfg.NominalLineTimes ∧
    traceTime (run .srchPass (started (bus [device romA]))).line.trace = 14960 ∧
    (run .srchPass (started (bus []))).line.trace = resetEvents build true ∧
    (run .srchPassA (started (bus [device romA]))).line.trace = readSlotEvents build true ++ readSlotEvents build true ++
      byteFrameEvents build build.cmdAlarm ++ resetEvents build false := by decide +kernel

/-- The smallest and the largest window. -/
theorem witness_InvariantHoldsAtReset : ({ build with tickWindow := 2 } : Config).Admitted ∧
    ({ build with tickWindow := 65536 } : Config).Admitted := by decide

theorem witness_StepKeepsTheInvariant : base.Inv ∧ (ticking 2 ⟨false, true, true, 1, 0, 0⟩).Inv ∧
    step base = .next base := ⟨by decide, by decide, rfl⟩

theorem witness_RunsInsideTheBlockNeverStop : (∀ x ∈ (awaiting (cmdInput 0x00)).inputs, x.foreign = false) ∧
    Input.foreign (.port (rd 0x2F)) = false ∧ Input.foreign (.port (rd 0x30)) = true := by decide +kernel

end Sys2Proof.Tests
end

section
/-! The block reset (70_reset_and_hazards.md R220) and the reset table of 10_state.md R41. -/
namespace Sys2Proof.Machine

/-- Power-on needs no table of its own: its state is one that a block reset leaves. -/
theorem blockReset_resetWith (c : Config) : blockReset (State.resetWith c) = State.resetWith c := rfl

theorem atResetValues_blockReset (s : State) : atResetValues (blockReset s) := by
  simp [atResetValues, TickState.reset]

/-- What arrives while `rst_n` is asserted has no effect (93_implementation_defined.md U19). -/
theorem step_blockReset {s : State} {during : List PortEvent} {rest : List Input}
    (h : s.inputs = .blockReset during :: rest) : step s = .next (blockReset { s with inputs := rest }) :=
  step_cons h

/-- Settles O9: one table for every block reset, and power-on is a fixed point of the block reset. -/
theorem resetGivesTheTableOfValues : Obligations.ResetGivesTheTableOfValues := by
  unfold Obligations.ResetGivesTheTableOfValues
  constructor
  · rw [State.reset, ← blockReset_resetWith]
    exact atResetValues_blockReset _
  · intro s during rest h
    exact ⟨_, step_blockReset h, atResetValues_blockReset _⟩

end Sys2Proof.Machine
end

section
/-! Illegal opcodes (30_encoding.md R95): which bytes `decode` rejects, and what a host write of one does (60_exceptions.md R195). -/
namespace Sys2Proof.Machine

/-- The map of R92 and the ranges of R95 divide the bytes between them. -/
theorem decode_cases (v : Byte) :
    (illegalOpcode v.toNat = false ∧ ∃ i, decode v = .ok i) ∨
    (illegalOpcode v.toNat = true ∧ decode v = .error (.illegalOpcode v)) := by
  unfold decode
  split
  case h_18 =>
    -- the byte is none of the 17 opcodes, so it lies in one of the ranges between them
    have hv : v.toNat < 256 := v.isLt
    refine .inr ⟨?_, rfl⟩
    simp only [illegalOpcode, Bool.or_eq_true, Bool.and_eq_true, decide_eq_true_eq]
    grind
  all_goals
    rename_i hv
    exact .inl ⟨by rw [hv]; decide, _, rfl⟩

theorem decode_of_legal {v : Byte} (h : illegalOpcode v.toNat = false) : ∃ i, decode v = .ok i := by
  obtain ⟨-, hi⟩ | ⟨hv, -⟩ := decode_cases v
  · exact hi
  · simp [h] at hv

theorem decode_of_illegal {v : Byte} (h : illegalOpcode v.toNat = true) : decode v = .error (.illegalOpcode v) := by
  obtain ⟨hv, -⟩ | ⟨-, he⟩ := decode_cases v
  · simp [h] at hv
  · exact he

theorem cmdEffect_of_illegal {v : Byte} (h : illegalOpcode v.toNat = true) (s : State) :
    cmdEffect v s = raiseIllegal { s with cmd := v } := by
  simp only [cmdEffect, decode_of_illegal h]

theorem step_cmdInput {s : State} {v : Byte} {rest : List Input} (h : s.inputs = cmdInput v :: rest) :
    step s = .next (cmdEffect v { s with inputs := rest }) :=
  (step_cons h).trans (portEvent_cmd v _)

/-- Settles O3: `decode` rejects a byte exactly if it lies in the ranges of R95, and a rejected byte's whole effect is
`raiseIllegal` after `CMD` is stored. -/
theorem illegalOpcodeOnlySetsResult : Obligations.IllegalOpcodeOnlySetsResult := by
  unfold Obligations.IllegalOpcodeOnlySetsResult
  refine ⟨by decide +kernel, fun _ => decode_of_legal, fun _ => decode_of_illegal, ?_⟩
  intro s v rest h hv
  rw [step_cmdInput h, cmdEffect_of_illegal hv]
  rfl

end Sys2Proof.Machine
end

section
/-! The line commands release the line (40_line_primitives.md R128). A command that is carried out ends with a slot, a frame or a
reset pulse, each of which ends released; a command that is refused leaves the line as it was. -/
namespace Sys2Proof.Machine

/-- What extends a released line is released. -/
theorem dqLow_of_extends {l l' : Line} (h : Line.Extends l l') (hl : l.dqLow = false) : l'.dqLow = false := by
  obtain ⟨-, hsame | hreleased⟩ := h
  · exact hsame.trans hl
  · exact hreleased

theorem busResetBody_dqLow (s : State) : (busResetBody s).line.dqLow = false := by
  unfold busResetBody
  dsimp only
  split <;> simp

theorem matchIdBody_dqLow (s : State) : (matchIdBody s).line.dqLow = false := by
  unfold matchIdBody
  dsimp only
  split
  · simp [writeIdent_dqLow]
  · simp

/-- Neither the advance of the cursor nor the acceptance test touches the line. -/
@[simp] theorem finishPass_line (alarm : Bool) (nf : Nat) (s : State) : (finishPass alarm nf s).line = s.line := by
  unfold finishPass acceptIfZero
  split
  · cases alarm <;> rfl
  · rfl

/-- The command byte leaves the line released, so the loop over the positions does, however it ends. -/
theorem searchBody_dqLow (alarm : Bool) (s : State) : (searchBody alarm s).line.dqLow = false := by
  have hloop := dqLow_of_extends
    (searchLoop_extends s.cfg s.fork.toNat s.prev positions 0 (writeByte s.cfg (searchByte s.cfg alarm) s.line) Ident.zero)
    (writeByte_dqLow _ _ _)
  unfold searchBody
  dsimp only
  split <;> simpa using hloop

/-- A pass that has a cursor begins with a reset pulse, with or without presence. -/
theorem searchPassBody_dqLow (alarm : Bool) {s : State} (hfork : s.fork ≠ 0#8) :
    (searchPassBody alarm s).line.dqLow = false := by
  unfold searchPassBody
  rw [if_neg hfork]
  dsimp only
  split
  · exact searchBody_dqLow _ _
  · simp

/-- A line command that no rule refuses releases the line, whatever the line was before. -/
theorem effect_dqLow_of_accepted {i : Instr} {s : State} (hi : i ∈ lineCommands) (hspu : s.spu = false)
    (hfork : i = .srchPass ∨ i = .srchPassA → s.fork ≠ 0#8) : (effect i s).line.dqLow = false := by
  cases i <;> simp only [effect, searchPass, unlessHeld_free hspu]
  case busReset => exact busResetBody_dqLow s
  case writeBit => simp
  case readBit => simp [readBitBody]
  case writeByte => simp
  case readByte => simp [readByteBody]
  case matchId => exact matchIdBody_dqLow s
  case srchPass => exact searchPassBody_dqLow false (hfork (.inl rfl))
  case srchPassA => exact searchPassBody_dqLow true (hfork (.inr rfl))
  -- the other commands are not in the list
  all_goals exact absurd hi (by decide)

/-- Settles O22: on a released line no command can leave it asserted, and a line command that is not refused releases it. -/
theorem lineCommandsLeaveTheLineReleased : Obligations.LineCommandsLeaveTheLineReleased := by
  unfold Obligations.LineCommandsLeaveTheLineReleased
  intro i s hi h
  refine ⟨effect i s, exec_eq_effect i s, ?_⟩
  obtain hreleased | ⟨hspu, hfork⟩ := h
  · exact dqLow_of_extends (effect_extends i s) hreleased
  · exact effect_dqLow_of_accepted hi hspu hfork

end Sys2Proof.Machine
end

section
/-! The CRC commands (42_crc8.md): what `CRC_STEP` (R142) and `CRC_ID` (R143) leave, and their start value and polynomial in the
configurations of this block (R140, R141). -/
namespace Sys2Proof.Machine

theorem crcPoly_of_admitted {c : Config} (h : c.Admitted) : c.crcPoly = 0x8C#8 := by
  obtain ⟨-, hpoly, -⟩ := h
  exact hpoly

theorem crcInit_of_admitted {c : Config} (h : c.Admitted) : c.crcInit = 0x00#8 := by
  obtain ⟨-, -, hinit, -⟩ := h
  exact hinit

/-- Settles O24: the effect of `CRC_STEP` is the update itself; an admitted configuration fixes its polynomial. -/
theorem crcStepFoldsData : Obligations.CrcStepFoldsData := by
  unfold Obligations.CrcStepFoldsData
  intro s
  have hstep : exec .crcStep s = .next { s with crc := crc8Step s.cfg.crcPoly s.crc s.data, res := 0x00#8 } :=
    exec_eq_effect .crcStep s
  refine ⟨hstep, fun hc => ?_⟩
  rw [hstep, crcPoly_of_admitted hc]

/-- The test of `CRC_ID` accepts without counting, so it writes `RES` alone. -/
theorem acceptIfZero_id (s : State) :
    acceptIfZero (fun s => s) s = { s with res := if s.crc = 0x00#8 then 0x00#8 else 0x02#8 } := by
  unfold acceptIfZero
  split
  · rfl
  · rfl

/-- A fold over an identity takes its bytes in the order of their indices. -/
theorem crc8Ident_eq_foldl (c : Config) (buf : Ident) :
    crc8Ident c buf =
      [buf[0], buf[1], buf[2], buf[3], buf[4], buf[5], buf[6], buf[7]].foldl (crc8Step c.crcPoly) c.crcInit := by
  have hbytes : buf.toList = [buf[0], buf[1], buf[2], buf[3], buf[4], buf[5], buf[6], buf[7]] :=
    List.ext_getElem (by simp) fun k hk _ => by
      rw [Vector.length_toList] at hk
      interval_cases k <;> simp
  rw [crc8Ident, crc8, crc8From, hbytes]

/-- Settles O25: the acceptance test sees the fold just stored, and an admitted configuration fixes the fold's start value and
polynomial. -/
theorem crcIdAcceptsExactlyZeroFold : Obligations.CrcIdAcceptsExactlyZeroFold := by
  unfold Obligations.CrcIdAcceptsExactlyZeroFold
  intro s
  refine ⟨crc8Ident s.cfg s.id, crc8Ident_eq_foldl s.cfg s.id, ?_, fun hc => ?_⟩
  · rw [exec_eq_effect, effect, acceptIfZero_id]
  · rw [crc8Ident_eq_foldl, crcPoly_of_admitted hc, crcInit_of_admitted hc]
    rfl

end Sys2Proof.Machine
end

section
/-! Creating the cursor (43_discovery.md R150, R151), and the value `FORK` starts from in the configurations of this block. -/
namespace Sys2Proof.Machine

theorem forkStart_of_admitted {c : Config} (h : c.Admitted) : c.forkStart = 65#8 := by
  obtain ⟨-, -, -, hfork, -⟩ := h
  exact hfork

/-- Settles O33: both start commands create the same cursor, with the zero identity in both buffers, and differ only in the count
they clear; an admitted configuration fixes `FORK_START`. -/
theorem startCommandsCreateTheCursor : Obligations.StartCommandsCreateTheCursor := by
  unfold Obligations.StartCommandsCreateTheCursor
  intro s
  refine ⟨Ident.zero, fun k _ => identByte_zero k, ?normal, ?alarm, forkStart_of_admitted⟩
  case normal => exact exec_eq_effect .srchStart s
  case alarm => exact exec_eq_effect .srchStartA s

end Sys2Proof.Machine
end

section
/-! The tick interrupt at its three places: a pulse (44_tick_sync.md R170, R171), a write to `TCTRL` (R172) and the end of `SYNC`
(R175). -/
namespace Sys2Proof.Machine

/-- Settles O40: a pulse is the interrupt action while `TIE = 1` and a held event while `TIE = 0`. -/
theorem timerEventCountsOrIsHeld : Obligations.TimerEventCountsOrIsHeld := by
  unfold Obligations.TimerEventCountsOrIsHeld
  intro s rest h
  have hstep : step s = .next (timerTick { s with inputs := rest }) := step_cons h
  rw [hstep]
  rfl

/-- Serving a held event at the end of a protected section, with the interrupt action written out. -/
theorem serveHeld_eq_ite (w : Nat) (t : TickState) :
    serveHeld w t =
      if t.tie = true ∧ t.tpend = true then
        { t with tpend := false, tf := true, tick := BitVec.ofNat 16 ((t.tick.toNat + 1) % w) }
      else t := by
  obtain ⟨htie, htpend, hserved⟩ | ⟨hheld, hsame⟩ := serveHeld_cases w t
  · rw [hserved, if_pos ⟨htie, htpend⟩]
    rfl
  · rw [hsame, if_neg fun ⟨htie, htpend⟩ => by simp [hheld htie] at htpend]

/-- The test of bit 0, as the mask that the statements write. -/
theorem getLsbD_zero_eq_decide_mask (v : Byte) : v.getLsbD 0 = decide (v &&& 1#8 = 1#8) := by
  rw [BitVec.and_one_eq_setWidth_ofBool_getLsbD]
  cases v.getLsbD 0 <;> decide

/-- A write to `TCTRL`, with bit 0 as a mask and the interrupt action written out. -/
theorem writeTctrl_eq_ite (w : Nat) (v : Byte) (t : TickState) :
    writeTctrl w v t =
      if v &&& 1#8 = 1#8 ∧ t.tpend = true then
        { t with tie := true, tpend := false, tf := true, tick := BitVec.ofNat 16 ((t.tick.toNat + 1) % w) }
      else { t with tie := decide (v &&& 1#8 = 1#8) } := by
  rw [writeTctrl, getLsbD_zero_eq_decide_mask, serveHeld_eq_ite]
  by_cases hv : v &&& 1#8 = 1#8
  · simp [hv]
  · simp [hv]

theorem step_write {s : State} {off : Nat} {v : Byte} {rest : List Input} (h0 : off ≠ 0x00) (hoff : off ≤ 0x2F)
    (h : s.inputs = .port (.access (.write off 1 v)) :: rest) :
    step s = .next (writeReg off v { s with inputs := rest }) :=
  (step_cons h).trans (portEvent_write h0 hoff v _)

/-- Settles O41: the write sets `TIE` and ends the section as every section ends, by serving what is held if `TIE` is now 1. -/
theorem tctrlWriteServesAHeldTick : Obligations.TctrlWriteServesAHeldTick := by
  unfold Obligations.TctrlWriteServesAHeldTick
  intro s v rest h
  rw [step_write (by decide) (by decide) h, ← writeTctrl_eq_ite]
  rfl

/-- The tick group inside the section of `SYNC`, the tick taken if there was one and nothing served yet. -/
def tickTaken (t : TickState) : TickState :=
  { t with
    tf := false
    snap := if t.tf then t.tick else t.snap
    sec := if t.tf = true ∧ t.tick = 0#16 then t.sec + 1#32 else t.sec }

theorem syncTicks_eq_serveHeld (w : Nat) (t : TickState) : syncTicks w t = (t.tf, serveHeld w (tickTaken t)) :=
  syncTicks_eq w t

/-- Settles O42: `SYNC` takes the tick, then serves what is held; taking touches none of `TIE`, `TPEND` and `TICK`, so the values
that serving finds are those before the command. -/
theorem syncTakesTheTick : Obligations.SyncTakesTheTick := by
  unfold Obligations.SyncTakesTheTick
  intro s
  have hsync : exec .sync s = .next { s with
      data := zext8 s.ticks.tf
      res := 0x00#8
      ticks := serveHeld s.cfg.tickWindow (tickTaken s.ticks) } := by
    rw [exec_eq_effect, effect, syncState, syncTicks_eq_serveHeld]
    rfl
  refine ⟨tickTaken s.ticks, rfl, ?_⟩
  rw [hsync, serveHeld_eq_ite]
  rfl

end Sys2Proof.Machine
end

section
/-! The flags (45_flags.md): what the two flag commands write (R185, R186), and that no command tests a flag (R187). -/
namespace Sys2Proof.Machine

/-! ### The flag commands, bit by bit -/

theorem getLsbD_setReady (f mask : Byte) {k : Nat} (hk : k < 8) :
    (setReady f mask).getLsbD k = (f.getLsbD k || (decide (k < 3) && mask.getLsbD k)) := by
  have hmask : ∀ k < 8, (0x07 : Byte).getLsbD k = decide (k < 3) := by decide
  rw [setReady, BitVec.getLsbD_or, BitVec.getLsbD_and, hmask k hk, Bool.and_comm]

theorem getLsbD_clearBusErr (f : Byte) {k : Nat} (hk : k < 8) :
    (clearBusErr f).getLsbD k = (f.getLsbD k && decide (k ≠ 3)) := by
  have hmask : ∀ k < 8, (0xF7 : Byte).getLsbD k = decide (k ≠ 3) := by decide
  rw [clearBusErr, BitVec.getLsbD_and, hmask k hk]

/-- Settles O50: each of the two commands stores `FLAGS` combined with a constant mask, which names the bits it may write. -/
theorem flagCommandsWriteOnlyTheirBits : Obligations.FlagCommandsWriteOnlyTheirBits := by
  unfold Obligations.FlagCommandsWriteOnlyTheirBits
  intro s
  constructor
  · exact ⟨setReady s.flags s.data, exec_eq_effect .setRdy s, fun _ => getLsbD_setReady s.flags s.data⟩
  · exact ⟨clearBusErr s.flags, exec_eq_effect .clrErr s, fun _ => getLsbD_clearBusErr s.flags⟩

/-! ### No command tests a flag -/

/-- The second state is the first with any value in `FLAGS`. -/
def SameButFlags (t u : State) : Prop := ∃ f, u = { t with flags := f }

/-- What `body` does to the rest of the state does not depend on `FLAGS`. -/
def FlagBlind (body : State → State) : Prop := ∀ s f, SameButFlags (body s) (body { s with flags := f })

/-- A test with one answer for both states keeps them equal but for `FLAGS`. -/
theorem SameButFlags.ite {c : Prop} [Decidable c] {t t' u u' : State} (h : SameButFlags t u) (h' : SameButFlags t' u') :
    SameButFlags (if c then t else t') (if c then u else u') := by
  split
  · exact h
  · exact h'

/-- The refusal of R194 tests `SPU` alone. -/
theorem flagBlind_unlessHeld {body : State → State} (h : FlagBlind body) : FlagBlind fun s => unlessHeld s body :=
  fun s f => .ite ⟨f, rfl⟩ (h s f)

theorem flagBlind_busResetBody : FlagBlind busResetBody :=
  fun _ f => .ite ⟨f, rfl⟩ ⟨setBusErr f, rfl⟩

theorem flagBlind_matchIdBody : FlagBlind matchIdBody :=
  fun _ f => .ite ⟨f, rfl⟩ ⟨setBusErr f, rfl⟩

/-- The acceptance test tests `CRC` alone. -/
theorem flagBlind_acceptIfZero {accept : State → State} (h : FlagBlind accept) : FlagBlind (acceptIfZero accept) := by
  intro s f
  obtain ⟨f', haccept⟩ := h s f
  have hok : SameButFlags (endWith .ok (accept s)) (endWith .ok (accept { s with flags := f })) :=
    ⟨f', by rw [haccept]; rfl⟩
  exact .ite hok ⟨f, rfl⟩

theorem flagBlind_countAccepted (alarm : Bool) : FlagBlind (countAccepted alarm) :=
  fun _ f => .ite ⟨f, rfl⟩ ⟨f, rfl⟩

theorem flagBlind_finishPass (alarm : Bool) (nf : Nat) : FlagBlind (finishPass alarm nf) :=
  fun _ f => flagBlind_acceptIfZero (flagBlind_countAccepted alarm) _ f

/-- The loop over the positions is given the configuration, the cursor and the line, so it ends alike for every `FLAGS`. -/
theorem flagBlind_searchBody (alarm : Bool) : FlagBlind (searchBody alarm) := by
  intro s f
  unfold searchBody
  dsimp only
  split
  · exact ⟨setBusErr f, rfl⟩
  · exact flagBlind_finishPass alarm _ _ f

/-- The refusal of R193 tests `FORK`, and the reset pulse is a matter of the line. -/
theorem flagBlind_searchPassBody (alarm : Bool) : FlagBlind (searchPassBody alarm) :=
  fun _ f => .ite ⟨f, rfl⟩ (.ite (flagBlind_searchBody alarm _ f) ⟨setBusErr f, rfl⟩)

theorem flagBlind_searchPass (alarm : Bool) : FlagBlind (searchPass alarm) :=
  flagBlind_unlessHeld (flagBlind_searchPassBody alarm)

/-- Every command: its tests are on `SPU`, `FORK`, `CRC` and the line, and what it writes outside `FLAGS` is computed from
other elements. -/
theorem flagBlind_effect (i : Instr) : FlagBlind (effect i) := by
  cases i
  case busReset => exact flagBlind_unlessHeld flagBlind_busResetBody
  case matchId => exact flagBlind_unlessHeld flagBlind_matchIdBody
  case srchPass => exact flagBlind_searchPass false
  case srchPassA => exact flagBlind_searchPass true
  case crcId => exact fun _ f => .ite ⟨f, rfl⟩ ⟨f, rfl⟩
  case writeBit | readBit | writeByte | readByte => exact flagBlind_unlessHeld fun _ f => ⟨f, rfl⟩
  case spuOn | spuOff | crcStep | srchStart | srchStartA | sync => exact fun _ f => ⟨f, rfl⟩
  case setRdy => exact fun s f => ⟨setReady f s.data, rfl⟩
  case clrErr => exact fun _ f => ⟨clearBusErr f, rfl⟩

/-- Settles O51: every command completes in every state, and its effect is blind to `FLAGS`. -/
theorem flagsGateNoCommand : Obligations.FlagsGateNoCommand := by
  unfold Obligations.FlagsGateNoCommand
  intro i s f
  obtain ⟨f', heffect⟩ := flagBlind_effect i s f
  exact ⟨effect i s, f', exec_eq_effect i s, by rw [exec_eq_effect, heffect]⟩

end Sys2Proof.Machine
end

section
/-! The refusal under the strong pull-up (60_exceptions.md R194), and the result codes of the commands it does not concern. -/
namespace Sys2Proof.Machine

/-- The body of every line command stands under the one test of `SPU`. -/
theorem effect_of_spu_on {i : Instr} {s : State} (hi : i ∈ lineCommands) (hspu : s.spu = true) :
    effect i s = { s with res := 0x04#8 } := by
  cases i
  case busReset | writeBit | readBit | writeByte | readByte | matchId | srchPass | srchPassA =>
    simp only [effect, searchPass, unlessHeld_held hspu]
  case spuOn | spuOff | crcStep | crcId | srchStart | srchStartA | sync | setRdy | clrErr =>
    exact absurd hi (by decide)

/-- Away from the line there is one way not to succeed: the fold of `CRC_ID` is not zero (R192). -/
theorem effect_res_of_not_lineCommand {i : Instr} (hi : i ∉ lineCommands) (s : State) :
    (effect i s).res = 0x00#8 ∨ (effect i s).res = 0x02#8 := by
  cases i
  case busReset | writeBit | readBit | writeByte | readByte | matchId | srchPass | srchPassA =>
    exact absurd (by decide) hi
  case crcId =>
    rw [effect, acceptIfZero_id]
    exact ite_eq_or_eq _ _ _
  case spuOn | spuOff | crcStep | srchStart | srchStartA | sync | setRdy | clrErr => exact .inl rfl

/-- Settles O21: the refusal comes before the body of a line command, and what another command ends with is not its code. -/
theorem lineCommandsAreHeldOffByThePullUp : Obligations.LineCommandsAreHeldOffByThePullUp := by
  unfold Obligations.LineCommandsAreHeldOffByThePullUp
  constructor
  · intro i s hi hspu
    rw [exec_eq_effect, effect_of_spu_on hi hspu]
  · intro i s hi
    refine ⟨effect i s, exec_eq_effect i s, ?_⟩
    obtain hok | hmismatch := effect_res_of_not_lineCommand hi s
    · rw [hok]; decide
    · rw [hmismatch]; decide

end Sys2Proof.Machine
end

section
/-! Nominal durations (70_reset_and_hazards.md R242): the events each command adds to the trace, by how it ends, and how long they
take at the nominal line times. -/
namespace Sys2Proof.Machine

/-! ### The events of a command -/

/-- The rows of R242: the command `i`, ending with the result `r`, adds the events `new` to the trace (newest first). -/
inductive CommandEvents (c : Config) : Instr → Byte → List LineEvent → Prop where
  | refused (i : Instr) (r : Byte) (hr : r = 0x03#8 ∨ r = 0x04#8) : CommandEvents c i r []
  | offLine (i : Instr) (r : Byte) (new : List LineEvent) (hi : i ∉ lineCommands) (hnew : new = [] ∨ ∃ v, new = [.spu v]) :
      CommandEvents c i r new
  | noPresence (i : Instr) (hi : i = .busReset ∨ i = .matchId ∨ ∃ alarm, i = passCmd alarm) :
      CommandEvents c i 0x01#8 (resetEvents c true)
  | busReset : CommandEvents c .busReset 0x00#8 (resetEvents c false)
  | writeBit (b : Bool) : CommandEvents c .writeBit 0x00#8 (writeSlotEvents c b)
  | readBit (b : Bool) : CommandEvents c .readBit 0x00#8 (readSlotEvents c b)
  | writeByte (v : Byte) : CommandEvents c .writeByte 0x00#8 (byteFrameEvents c v)
  | readByte (v : Byte) :
      CommandEvents c .readByte 0x00#8 (frameBits.reverse.flatMap fun k => readSlotEvents c (v.getLsbD k))
  | matchId (buf : Ident) :
      CommandEvents c .matchId 0x00#8
        (buf.toList.reverse.flatMap (byteFrameEvents c) ++ byteFrameEvents c c.cmdMatch ++ resetEvents c false)
  | completePass (alarm : Bool) (a b : Nat → Bool) (buf : Ident) (r : Byte) (hr : r = 0x00#8 ∨ r = 0x02#8) :
      CommandEvents c (passCmd alarm) r
        (passEvents c a b buf 64 ++ byteFrameEvents c (searchByte c alarm) ++ resetEvents c false)
  | noResponse (alarm : Bool) (p : Nat) (a b : Nat → Bool) (buf : Ident) (hp : 1 ≤ p) (hp64 : p ≤ 64)
      (hbelow : ∀ j, 1 ≤ j → j < p → (a j && b j) = false) :
      CommandEvents c (passCmd alarm) 0x01#8
        (readSlotEvents c true ++ readSlotEvents c true ++ passEvents c a b buf (p - 1) ++
          byteFrameEvents c (searchByte c alarm) ++ resetEvents c false)

/-- `t` is an end of the command `i` started in `s`: its trace and its result are those of one of the rows. -/
def EndsCommand (i : Instr) (s t : State) : Prop :=
  ∃ new, t.line.trace = new ++ s.line.trace ∧ CommandEvents s.cfg i t.res new

theorem endsCommand_unlessHeld {i : Instr} {s : State} {body : State → State} (h : EndsCommand i s (body s)) :
    EndsCommand i s (unlessHeld s body) := by
  unfold unlessHeld
  split
  · exact ⟨[], rfl, .refused i _ (.inr rfl)⟩
  · exact h

theorem endsCommand_busResetBody (s : State) : EndsCommand .busReset s (busResetBody s) := by
  unfold busResetBody
  dsimp only
  split <;> rename_i hpresence
  · exact ⟨_, by simp [hpresence], .busReset⟩
  · exact ⟨_, by simp [hpresence], .noPresence _ (.inl rfl)⟩

theorem endsCommand_matchIdBody (s : State) : EndsCommand .matchId s (matchIdBody s) := by
  unfold matchIdBody
  dsimp only
  split <;> rename_i hpresence
  · exact ⟨_, by simp [hpresence, ← List.append_assoc], .matchId s.id⟩
  · exact ⟨_, by simp [hpresence], .noPresence _ (.inr (.inl rfl))⟩

/-- A pass that answers every position is accepted or ends with a CRC mismatch. -/
theorem finishPass_res (alarm : Bool) (nf : Nat) (s : State) :
    (finishPass alarm nf s).res = 0x00#8 ∨ (finishPass alarm nf s).res = 0x02#8 := by
  unfold finishPass acceptIfZero
  split
  · exact .inl rfl
  · exact .inr rfl

/-- The two ends of the loop over the positions, after a reset pulse that saw presence. -/
theorem endsCommand_searchBody (alarm : Bool) {s : State} (hpresence : (busReset s.cfg s.line).1 = true) :
    EndsCommand (passCmd alarm) s (searchBody alarm { s with line := (busReset s.cfg s.line).2 }) := by
  unfold searchBody
  dsimp only
  obtain ⟨a, b, r, hr, -, hcomplete | hopen⟩ := searchLoop_cases s.cfg s.fork.toNat s.prev 64 1 0
    (writeByte s.cfg (searchByte s.cfg alarm) (busReset s.cfg s.line).2) Ident.zero (by decide) (by decide)
  · obtain ⟨nf, hend, htrace, -⟩ := hcomplete
    rw [positions, hr, hend]
    refine ⟨_, ?_, .completePass alarm a b r.id _ (finishPass_res ..)⟩
    simp [htrace, hpresence, passEvents]
  · obtain ⟨p, hend, hp, hp', -, -, htrace, -, hbelow, -⟩ := hopen
    rw [positions, hr, hend]
    refine ⟨_, ?_, .noResponse alarm p a b r.id hp (by omega) fun j hj hjp => (hbelow j hj hjp).1⟩
    simp [htrace, hpresence, passEvents]

theorem endsCommand_searchPassBody (alarm : Bool) (s : State) :
    EndsCommand (passCmd alarm) s (searchPassBody alarm s) := by
  unfold searchPassBody
  dsimp only
  split
  · exact ⟨[], rfl, .refused _ _ (.inl rfl)⟩
  · split <;> rename_i hpresence
    · exact endsCommand_searchBody alarm hpresence
    · exact ⟨_, by simp [hpresence], .noPresence _ (.inr (.inr ⟨alarm, rfl⟩))⟩

/-- Every command ends as one of the rows says. -/
theorem endsCommand_effect (i : Instr) (s : State) : EndsCommand i s (effect i s) := by
  cases i
  case busReset => exact endsCommand_unlessHeld (endsCommand_busResetBody s)
  case writeBit => exact endsCommand_unlessHeld ⟨_, writeBit_trace .., .writeBit _⟩
  case readBit => exact endsCommand_unlessHeld ⟨_, readBit_trace .., .readBit _⟩
  case writeByte => exact endsCommand_unlessHeld ⟨_, writeByte_trace .., .writeByte _⟩
  case readByte => exact endsCommand_unlessHeld ⟨_, readByte_trace .., .readByte _⟩
  case matchId => exact endsCommand_unlessHeld (endsCommand_matchIdBody s)
  case srchPass => exact endsCommand_unlessHeld (endsCommand_searchPassBody false s)
  case srchPassA => exact endsCommand_unlessHeld (endsCommand_searchPassBody true s)
  case spuOn => exact ⟨_, rfl, .offLine _ _ _ (by decide) (.inr ⟨true, rfl⟩)⟩
  case spuOff => exact ⟨_, rfl, .offLine _ _ _ (by decide) (.inr ⟨false, rfl⟩)⟩
  case crcId =>
    refine ⟨[], ?_, .offLine _ _ _ (by decide) (.inl rfl)⟩
    rw [effect, acceptIfZero_id]
    rfl
  case crcStep | srchStart | srchStartA | sync | setRdy | clrErr =>
    exact ⟨[], rfl, .offLine _ _ _ (by decide) (.inl rfl)⟩

/-! ### The durations of the events -/

@[simp] theorem traceTime_nil : traceTime [] = 0 := rfl

@[simp] theorem traceTime_append (es fs : List LineEvent) : traceTime (es ++ fs) = traceTime es + traceTime fs := by
  simp [traceTime]

/-- Stretches of one duration, one after another. -/
theorem traceTime_flatMap {α : Type} {f : α → List LineEvent} {n : Nat} (h : ∀ x, traceTime (f x) = n) (xs : List α) :
    traceTime (xs.flatMap f) = n * xs.length := by
  induction xs with
  | nil => rfl
  | cons x xs ih => rw [List.flatMap_cons, traceTime_append, h, ih, List.length_cons, Nat.mul_succ, Nat.add_comm]

section
variable {c : Config} (hc : c.NominalLineTimes)
include hc

theorem traceTime_writeSlotEvents (b : Bool) : traceTime (writeSlotEvents c b) = 70 := by
  cases b <;> simp [writeSlotEvents, traceTime, eventTime, hc]

theorem traceTime_readSlotEvents (b : Bool) : traceTime (readSlotEvents c b) = 70 := by
  simp [readSlotEvents, traceTime, eventTime, hc]

theorem traceTime_byteFrameEvents (v : Byte) : traceTime (byteFrameEvents c v) = 560 :=
  traceTime_flatMap (fun _ => traceTime_writeSlotEvents hc _) _

/-- The eight read slots of a byte. -/
theorem traceTime_readByteEvents (v : Byte) :
    traceTime (frameBits.reverse.flatMap fun k => readSlotEvents c (v.getLsbD k)) = 560 :=
  traceTime_flatMap (fun _ => traceTime_readSlotEvents hc _) _

/-- The eight byte frames of an identity. -/
theorem traceTime_identEvents (buf : Ident) : traceTime (buf.toList.reverse.flatMap (byteFrameEvents c)) = 4480 := by
  rw [traceTime_flatMap (traceTime_byteFrameEvents hc)]
  simp

theorem traceTime_resetEvents (p : Bool) : traceTime (resetEvents c p) = if p then 550 else 960 := by
  cases p <;> simp [resetEvents, traceTime, eventTime, hc]

theorem traceTime_tripletEvents (a b d : Bool) : traceTime (tripletEvents c a b d) = 210 := by
  simp [tripletEvents, traceTime_writeSlotEvents hc, traceTime_readSlotEvents hc]

theorem traceTime_passEvents (a b : Nat → Bool) (buf : Ident) (n : Nat) :
    traceTime (passEvents c a b buf n) = 210 * n := by
  rw [passEvents, ← List.map_reverse, ← List.flatMap_def, traceTime_flatMap fun _ => traceTime_tripletEvents hc _ _ _]
  simp

theorem traceTime_matchIdEvents (buf : Ident) :
    traceTime (buf.toList.reverse.flatMap (byteFrameEvents c) ++ byteFrameEvents c c.cmdMatch ++ resetEvents c false) =
      6000 := by
  simp [traceTime_identEvents hc, traceTime_byteFrameEvents hc, traceTime_resetEvents hc]

theorem traceTime_completePassEvents (a b : Nat → Bool) (buf : Ident) (v : Byte) :
    traceTime (passEvents c a b buf 64 ++ byteFrameEvents c v ++ resetEvents c false) = 14960 := by
  simp [traceTime_passEvents hc, traceTime_byteFrameEvents hc, traceTime_resetEvents hc]

theorem traceTime_noResponseEvents (a b : Nat → Bool) (buf : Ident) (v : Byte) (n : Nat) :
    traceTime (readSlotEvents c true ++ readSlotEvents c true ++ passEvents c a b buf n ++ byteFrameEvents c v ++
      resetEvents c false) = 1520 + 210 * n + 140 := by
  simp only [traceTime_append, traceTime_readSlotEvents hc, traceTime_passEvents hc, traceTime_byteFrameEvents hc,
    traceTime_resetEvents hc, Bool.false_eq_true, if_false]
  omega

end

/-! ### The table -/

@[simp] theorem passCmd_inj {alarm alarm' : Bool} : passCmd alarm = passCmd alarm' ↔ alarm = alarm' := by
  cases alarm <;> cases alarm' <;> decide

@[simp] theorem passCmd_mem_lineCommands (alarm : Bool) : passCmd alarm ∈ lineCommands := by cases alarm <;> decide

/-- The pass commands are none of the transport commands. -/
theorem passCmd_ne_transport (alarm : Bool) :
    passCmd alarm ≠ .busReset ∧ passCmd alarm ≠ .writeBit ∧ passCmd alarm ≠ .readBit ∧ passCmd alarm ≠ .writeByte ∧
      passCmd alarm ≠ .readByte ∧ passCmd alarm ≠ .matchId := by
  cases alarm <;> decide

/-- Settles O57: a command ends in one of the ways of `CommandEvents`; each way has one duration and belongs to one row of the
table, the other rows asking for another command or another result. -/
theorem nominalDurationsAreTheTable : Obligations.NominalDurationsAreTheTable := by
  unfold Obligations.NominalDurationsAreTheTable
  constructor
  · intro i s hc
    obtain ⟨new, htrace, hnew⟩ := endsCommand_effect i s
    refine ⟨effect i s, new, exec_eq_effect i s, htrace, ?_⟩
    clear htrace
    generalize (effect i s).res = r at hnew
    cases hnew with
    | refused _ _ hr => obtain rfl | rfl := hr <;> simp
    | offLine _ _ _ hi hnew =>
      have htime : traceTime new = 0 := by obtain rfl | ⟨v, rfl⟩ := hnew <;> rfl
      simp only [lineCommands, List.mem_cons, not_or] at hi
      simp [htime, hi, passCmd]
    | noPresence _ hi =>
      have htime := traceTime_resetEvents hc true
      obtain rfl | rfl | ⟨alarm, rfl⟩ := hi
      · simp [htime, lineCommands, passCmd]
      · simp [htime, lineCommands, passCmd]
      · simp [htime, passCmd_ne_transport]
    | busReset => simp [traceTime_resetEvents hc, lineCommands, passCmd]
    | writeBit b => simp [traceTime_writeSlotEvents hc, lineCommands, passCmd]
    | readBit b => simp [traceTime_readSlotEvents hc, lineCommands, passCmd]
    | writeByte v => simp [traceTime_byteFrameEvents hc, lineCommands, passCmd]
    | readByte v => simp [traceTime_readByteEvents hc, lineCommands, passCmd]
    | matchId buf =>
      rw [traceTime_matchIdEvents hc]
      simp [lineCommands, passCmd, -List.append_assoc]
    | completePass alarm a b buf _ hr =>
      rw [traceTime_completePassEvents hc]
      obtain rfl | rfl := hr <;> simp [passCmd_ne_transport]
    | noResponse alarm p a b buf hp hp64 hbelow =>
      have htime := traceTime_noResponseEvents hc a b buf (searchByte s.cfg alarm) (p - 1)
      obtain ⟨hbr, hwb, hrb, hwB, hrB, hmi⟩ := passCmd_ne_transport alarm
      refine ⟨by omega, by simp, by simp [hbr], by simp [hwb, hrb], by simp [hwB, hrB], by simp [hmi], ?_⟩
      intro alarm' h
      obtain rfl := passCmd_inj.mp h
      exact ⟨by simp, fun _ => .inr ⟨p, a, b, buf, hp, hp64, hbelow, rfl, htime⟩⟩
  · intro s v rest h hv
    exact ⟨_, step_cmdInput h, by rw [cmdEffect_of_illegal hv]; rfl⟩

end Sys2Proof.Machine
end

section
/-! The history of line events (20_memory.md R69, R70): every step adds to it, each new sample directly after a release; a command
cut short by a reset adds the oldest of its events (70_reset_and_hazards.md R220). -/
namespace Sys2Proof.Machine

/-! ### Commands cut short -/

theorem firstNew_append (n : Nat) (new old : List LineEvent) :
    firstNew n old (new ++ old) = new.drop (new.length - n) := by
  simp [firstNew]

theorem samplesFollowRelease_tail {x : LineEvent} {es : List LineEvent} (h : samplesFollowRelease (x :: es) = true) :
    samplesFollowRelease es = true := by
  cases x with
  | smp v =>
    -- the sample has a release behind it
    cases es with
    | nil => rfl
    | cons y es => cases y <;> simp_all [samplesFollowRelease]
  | low | rel | spu => simpa [samplesFollowRelease] using h

/-- The oldest events of a history keep what their samples follow. -/
theorem samplesFollowRelease_drop {es : List LineEvent} (h : samplesFollowRelease es = true) (n : Nat) :
    samplesFollowRelease (es.drop n) = true := by
  induction n generalizing es with
  | zero => exact h
  | succ n ih =>
    cases es with
    | nil => rfl
    | cons x es => exact ih (samplesFollowRelease_tail h)

/-- What a command stopped after `n` events leaves of the events `new` it would have added. -/
theorem cutLine_trace {n : Nat} {l l' : Line} {new : List LineEvent} (h : l'.trace = new ++ l.trace) :
    (cutLine n l l').trace = new.drop (new.length - n) ++ l.trace := by
  simp [cutLine, h, firstNew_append]

/-! ### Every step -/

@[simp] theorem writeReg_line (off : Nat) (v : Byte) (s : State) : (writeReg off v s).line = s.line := by
  obtain ⟨d, c, b, h⟩ | ⟨-, h⟩ := writeReg_cases off v s <;> rw [h]

@[simp] theorem writeReg_cfg (off : Nat) (v : Byte) (s : State) : (writeReg off v s).cfg = s.cfg := by
  obtain ⟨d, c, b, h⟩ | ⟨-, h⟩ := writeReg_cases off v s <;> rw [h]

/-- Of the port events only a host write to `CMD` can reach the line, and no event is a change of parameters. -/
theorem portEvent_extends {e : PortEvent} {s t : State} (h : portEvent e s = .next t) :
    t.cfg = s.cfg ∧ Line.Extends s.line t.line := by
  obtain ⟨v, -, rfl⟩ | ⟨off, v, -, -, -, rfl⟩ | ⟨off, -, -, rfl⟩ | ⟨-, rfl⟩ := portEvent_cases h
  · exact ⟨(cmdEffect_keeps v s).1, cmdEffect_extends v s⟩
  · exact ⟨writeReg_cfg off v s, by simpa using extends_refl s.line⟩
  · exact ⟨rfl, extends_refl _⟩
  · exact ⟨rfl, extends_refl _⟩

/-- What a step can do to the configuration and to the history. -/
theorem step_history {s t : State} (h : step s = .next t) :
    t.cfg = s.cfg ∧ ∃ new, t.line.trace = new ++ s.line.trace ∧ samplesFollowRelease new = true := by
  obtain ⟨-, rfl⟩ | ⟨e, rest, -, hport⟩ | ⟨d, rest, -, rfl⟩ | ⟨v, n, rest, -, rfl⟩ | ⟨e, rest, -, rfl⟩ := step_cases h
  · exact ⟨rfl, [], rfl, rfl⟩
  · obtain ⟨hcfg, hnew, -⟩ := portEvent_extends hport
    exact ⟨hcfg, hnew⟩
  · exact ⟨rfl, [], rfl, rfl⟩
  · obtain ⟨⟨new, htrace, hnew⟩, -⟩ := cmdEffect_extends v { s with inputs := rest }
    exact ⟨rfl, _, cutLine_trace htrace, samplesFollowRelease_drop hnew _⟩
  · exact ⟨rfl, [], rfl, rfl⟩

/-- Settles O56: the samples that a step adds follow releases, and so do those that were there. -/
theorem samplesStayBehindReleases : Obligations.SamplesStayBehindReleases := by
  unfold Obligations.SamplesStayBehindReleases
  intro s t hs h
  obtain ⟨-, new, htrace, hnew⟩ := step_history h
  rw [htrace]
  exact samplesFollowRelease_append new _ hnew hs

/-- Settles O55: a step changes no event it finds. -/
theorem historyGrowsAndParametersStay : Obligations.HistoryGrowsAndParametersStay := by
  unfold Obligations.HistoryGrowsAndParametersStay
  intro s t h
  obtain ⟨hcfg, new, htrace, -⟩ := step_history h
  exact ⟨hcfg, new, htrace⟩

/-- Settles O11: the events kept and the events lost are the two parts of those the whole command would have added. -/
theorem abandonedCommandLeavesOnlyItsEvents : Obligations.AbandonedCommandLeavesOnlyItsEvents := by
  unfold Obligations.AbandonedCommandLeavesOnlyItsEvents
  intro s v n rest h
  obtain ⟨⟨new, htrace, -⟩, -⟩ := cmdEffect_extends v { s with inputs := rest }
  have hstep : step s = .next (blockReset
      { s with inputs := rest, line := cutLine n s.line (cmdEffect v { s with inputs := rest }).line }) := by
    rw [step_cons h, deliver, resetDuring, writeCmd_eq_cmdEffect]
  refine ⟨_, _, new.drop (new.length - n), new.take (new.length - n), hstep, writeCmd_eq_cmdEffect _ _,
    atResetValues_blockReset _, cutLine_trace htrace, ?_, ?_⟩
  · rw [List.take_append_drop, htrace]
  · rw [List.length_drop]
    by_cases hn : n ≤ new.length
    · exact .inl (by omega)
    · exact .inr ⟨by omega, by rw [show new.length - n = 0 by omega, List.take_zero]⟩

/-! ### While the strong pull-up is on -/

/-- A command that does not assert the line adds at most a switching of the pull-up. -/
theorem effect_events_of_not_lineCommand {i : Instr} (hi : i ∉ lineCommands) (s : State) :
    ∃ new, (effect i s).line.trace = new ++ s.line.trace ∧ ∀ x ∈ new, ∃ v, x = .spu v := by
  obtain ⟨new, htrace, hnew⟩ := endsCommand_effect i s
  refine ⟨new, htrace, ?_⟩
  generalize (effect i s).res = r at hnew
  cases hnew with
  | refused => simp
  | offLine _ _ _ _ hnew => obtain rfl | ⟨v, rfl⟩ := hnew <;> simp
  | noPresence _ h =>
    obtain rfl | rfl | ⟨alarm, rfl⟩ := h
    · exact absurd (by decide) hi
    · exact absurd (by decide) hi
    · exact absurd (passCmd_mem_lineCommands alarm) hi
  | completePass alarm | noResponse alarm => exact absurd (passCmd_mem_lineCommands alarm) hi
  | busReset | writeBit | readBit | writeByte | readByte | matchId => exact absurd (by decide) hi

/-- A host write to `CMD` while the pull-up is on: a line command is refused, another one is not on the line. -/
theorem cmdEffect_events_of_spu_on {s : State} (hspu : s.spu = true) (v : Byte) :
    ∃ new, (cmdEffect v s).line.trace = new ++ s.line.trace ∧ ∀ x ∈ new, ∃ v, x = .spu v := by
  unfold cmdEffect
  split
  · rename_i i _
    by_cases hi : i ∈ lineCommands
    · exact ⟨[], by rw [effect_of_spu_on (s := { s with cmd := v }) hi hspu]; rfl, by simp⟩
    · exact effect_events_of_not_lineCommand hi _
  · exact ⟨[], rfl, by simp⟩

/-- Settles O23: only a host write to `CMD` reaches the line, and under the pull-up it asserts nothing. -/
theorem noLowWhileThePullUpIsOn : Obligations.NoLowWhileThePullUpIsOn := by
  unfold Obligations.NoLowWhileThePullUpIsOn
  intro s t e rest hin hspu h
  rw [step_cons hin] at h
  obtain ⟨v, -, rfl⟩ | ⟨off, v, -, -, -, rfl⟩ | ⟨off, -, -, rfl⟩ | ⟨-, rfl⟩ := portEvent_cases h
  · exact cmdEffect_events_of_spu_on (s := { s with inputs := rest }) hspu v
  · exact ⟨[], by simp, by simp⟩
  · exact ⟨[], rfl, by simp⟩
  · exact ⟨[], rfl, by simp⟩

end Sys2Proof.Machine
end

section
/-! The bus transport family with the strong pull-up off (40_line_primitives.md, 41_byte_framing.md): each command's effect as one
equation, and the events it adds. -/
namespace Sys2Proof.Machine

/-- Bits 0 to 7 in the order they travel are the numbers below 8. -/
theorem flatten_reverse_map_range_eight (f : Nat → List LineEvent) :
    ((List.range 8).map f).reverse.flatten = frameBits.reverse.flatMap f := by
  rw [List.flatMap_def, List.map_reverse]
  rfl

/-! ### The equations -/

/-- `BUS_RESET` as one record, in terms of the presence sample `p`. -/
theorem busResetBody_eq {s : State} {p : Bool} (hp : (!(busReset s.cfg s.line).1) = p) :
    busResetBody s = { s with
      line := (busReset s.cfg s.line).2
      res := if p then 0x01#8 else 0x00#8
      flags := if p then s.flags ||| 0x08#8 else s.flags } := by
  subst hp
  unfold busResetBody
  dsimp only
  cases (busReset s.cfg s.line).1 <;> rfl

/-- `MATCH_ID` as one record, in terms of the presence sample `p`. -/
theorem matchIdBody_eq {s : State} {p : Bool} (hp : (!(busReset s.cfg s.line).1) = p) :
    matchIdBody s = { s with
      line := if p then (busReset s.cfg s.line).2
        else writeIdent s.cfg s.id (writeByte s.cfg s.cfg.cmdMatch (busReset s.cfg s.line).2)
      res := if p then 0x01#8 else 0x00#8
      flags := if p then s.flags ||| 0x08#8 else s.flags } := by
  subst hp
  unfold matchIdBody
  dsimp only
  cases (busReset s.cfg s.line).1 <;> rfl

section
variable {s : State} (hspu : s.spu = false)
include hspu

theorem exec_busReset_free : exec .busReset s = .next (busResetBody s) := by
  rw [exec_eq_effect, effect, unlessHeld_free hspu]

theorem exec_matchId_free : exec .matchId s = .next (matchIdBody s) := by
  rw [exec_eq_effect, effect, unlessHeld_free hspu]

theorem exec_writeBit_free :
    exec .writeBit s = .next { s with line := writeBit s.cfg (s.data.getLsbD 0) s.line, res := 0x00#8 } := by
  rw [exec_eq_effect, effect, unlessHeld_free hspu]
  rfl

theorem exec_readBit_free : exec .readBit s =
    .next { s with line := (readBit s.cfg s.line).2, data := zext8 (readBit s.cfg s.line).1, res := 0x00#8 } := by
  rw [exec_eq_effect, effect, unlessHeld_free hspu]
  rfl

theorem exec_writeByte_free :
    exec .writeByte s = .next { s with line := writeByte s.cfg s.data s.line, res := 0x00#8 } := by
  rw [exec_eq_effect, effect, unlessHeld_free hspu]
  rfl

theorem exec_readByte_free : exec .readByte s =
    .next { s with line := (readByte s.cfg s.line).2, data := (readByte s.cfg s.line).1, res := 0x00#8 } := by
  rw [exec_eq_effect, effect, unlessHeld_free hspu]
  rfl

end

/-! ### The statements about events -/

/-- Settles O12: the sample of the pulse is the one that decides between the two ends. -/
theorem busResetReportsPresence : Obligations.BusResetReportsPresence := by
  unfold Obligations.BusResetReportsPresence
  intro s hspu
  exact ⟨_, _, by rw [exec_busReset_free hspu, busResetBody_eq rfl], busReset_trace _ _, busReset_dqLow _ _⟩

/-- Settles O14: the slot carries bit 0, which the mask picks out. -/
theorem writeBitSendsDataBitZero : Obligations.WriteBitSendsDataBitZero := by
  unfold Obligations.WriteBitSendsDataBitZero
  intro s hspu
  refine ⟨_, exec_writeBit_free hspu, writeBit_dqLow _ _ _, ?_⟩
  rw [writeBit_trace, writeSlotEvents, getLsbD_zero_eq_decide_mask]
  simp only [decide_eq_true_eq]

/-- Settles O15: the bit read is the sample in the trace. -/
theorem readBitDeliversTheSample : Obligations.ReadBitDeliversTheSample := by
  unfold Obligations.ReadBitDeliversTheSample
  intro s hspu
  exact ⟨_, _, exec_readBit_free hspu, readBit_dqLow _ _, readBit_trace _ _⟩

/-- Settles O16: one frame, whose eight slots are listed newest first. -/
theorem writeByteSendsLowBitFirst : Obligations.WriteByteSendsLowBitFirst := by
  unfold Obligations.WriteByteSendsLowBitFirst
  intro s hspu
  refine ⟨_, exec_writeByte_free hspu, writeByte_dqLow _ _ _, ?_⟩
  rw [writeByte_trace, flatten_reverse_map_range_eight, byteFrameEvents]

/-- Settles O17: each sample of the frame is the bit of the byte read that has its slot's number. -/
theorem readByteAssemblesLowBitFirst : Obligations.ReadByteAssemblesLowBitFirst := by
  unfold Obligations.ReadByteAssemblesLowBitFirst
  intro s hspu
  refine ⟨_, _, exec_readByte_free hspu, readByte_dqLow _ _, ?_⟩
  rw [readByte_trace, flatten_reverse_map_range_eight]

/-- Settles O18: without presence the pulse is all there is; with it the nine frames follow. -/
theorem matchSendsTheIdentity : Obligations.MatchSendsTheIdentity := by
  unfold Obligations.MatchSendsTheIdentity
  intro s hspu
  refine ⟨_, _, by rw [exec_matchId_free hspu, matchIdBody_eq rfl], ?_, ?_⟩
  · split
    · exact busReset_dqLow _ _
    · exact writeIdent_dqLow _ _ _ (writeByte_dqLow _ _ _)
  · split <;> simp

/-- Settles O20: switching the pull-up asks for nothing, and `PULL` shows it next to the line driver. -/
theorem strongPullUpSwitches : Obligations.StrongPullUpSwitches := by
  unfold Obligations.StrongPullUpSwitches
  intro s
  have hpull : ∀ v, s.line.dqLow = false → readReg (effect (if v then .spuOn else .spuOff) s) 0x04 = zext8 v := by
    intro v hdq
    cases v <;> simp [readReg, effect, hdq, pullByte, setBit, zext8]
  refine ⟨exec_eq_effect .spuOn s, exec_eq_effect .spuOff s, fun hdq => ⟨?on, ?off⟩⟩
  case on =>
    rintro t ⟨⟩
    exact hpull true hdq
  case off =>
    rintro t ⟨⟩
    exact hpull false hdq

/-! ### The reference environment -/

/-- In the reference environment there is presence exactly if a device is on the line or the line is stuck low. -/
theorem busReset_presence_reference (c : Config) {l : Line} {r : Reference} (h : l.env = .reference r) :
    (busReset c l).1 = true ↔ r.devices ≠ [] ∨ r.stuckLow = true := by
  rw [busReset_presence, h, Environment.answer, Reference.answer]
  cases r.stuckLow <;> simp

theorem busReset_env_reference (c : Config) {l : Line} {r : Reference} (h : l.env = .reference r) :
    (busReset c l).2.env =
      .reference { r with devices := r.devices.map (fun d => { d with st := .command 0 0#8 }), settled := true } := by
  rw [busReset_env, h]
  rfl

/-- Settles O13: the presence sample is the answer of the devices, and the pulse is what every device waits for. -/
theorem presenceMeansADevice : Obligations.PresenceMeansADevice := by
  unfold Obligations.PresenceMeansADevice
  intro s r hspu henv
  refine ⟨_, _, by rw [exec_busReset_free hspu, busResetBody_eq rfl], busReset_env_reference _ henv, ?_, rfl, rfl⟩
  rw [← busReset_presence_reference s.cfg henv]
  cases (busReset s.cfg s.line).1 <;> simp

/-- After the reset pulse and the frame of `v` every device has decoded `v`. -/
theorem writeByte_env_command (c : Config) (v : Byte) {l : Line} {ds : List Device} {stuckLow settled : Bool}
    (h : l.env = .reference ⟨ds.map (fun d => { d with st := .command 0 0#8 }), stuckLow, settled⟩) :
    (writeByte c v l).env = .reference ⟨ds.map (fun d => { d with st := d.decodeWire c v }), stuckLow, settled⟩ := by
  rw [writeByte_env_bits, h, afterWrite_foldl, List.map_map]
  simp only [Function.comp_def, onWrite_commandByte]

/-- A device that compares from position `i` on is selected if it has all the bits sent, and idle otherwise. -/
theorem onWrite_matching (c : Config) (buf : Ident) (n i : Nat) (hn : i + n = 64) (d : Device) :
    ((List.range' i (n + 1)).map (idbit buf)).foldl (fun d b => d.onWrite c b) { d with st := .matching i } =
      { d with st := if ∀ j, i ≤ j → j ≤ 64 → idbit d.rom j = idbit buf j then .selected else .idle } := by
  induction n generalizing i with
  | zero =>
    obtain rfl : i = 64 := hn
    have hall : (∀ j, 64 ≤ j → j ≤ 64 → idbit d.rom j = idbit buf j) ↔ idbit d.rom 64 = idbit buf 64 :=
      ⟨fun h => h 64 (le_refl _) (le_refl _), fun h j h1 h2 => by rwa [show j = 64 by omega]⟩
    simp only [List.range'_succ, List.range'_zero, List.map_cons, List.map_nil, List.foldl_cons, List.foldl_nil,
      Device.onWrite, hall, if_true]
    split <;> rfl
  | succ n ih =>
    have hall : (∀ j, i ≤ j → j ≤ 64 → idbit d.rom j = idbit buf j) ↔
        idbit d.rom i = idbit buf i ∧ ∀ j, i + 1 ≤ j → j ≤ 64 → idbit d.rom j = idbit buf j := by
      refine ⟨fun h => ⟨h i (le_refl _) (by omega), fun j h1 h2 => h j (by omega) h2⟩, fun ⟨h, h'⟩ j h1 h2 => ?_⟩
      obtain rfl | hj := Nat.eq_or_lt_of_le h1
      · exact h
      · exact h' j hj h2
    rw [List.range'_succ, List.map_cons, List.foldl_cons]
    by_cases hbit : idbit d.rom i = idbit buf i
    · rw [show Device.onWrite c (idbit buf i) { d with st := .matching i } = { d with st := .matching (i + 1) } by
        simp [Device.onWrite, hbit, show i ≠ 64 by omega], ih (i + 1) (by omega)]
      simp only [hall, hbit, true_and]
    · rw [show Device.onWrite c (idbit buf i) { d with st := .matching i } = { d with st := .idle } by
        simp [Device.onWrite, hbit], onWrite_idle _ _ _ rfl]
      simp only [hall, hbit, false_and, if_false]

/-- The 64 bits of an identity select the devices that have it. -/
theorem onWrite_identity (c : Config) (buf : Ident) (d : Device) :
    (positions.map (idbit buf)).foldl (fun d b => d.onWrite c b) { d with st := .matching 1 } =
      { d with st := if d.rom = buf then .selected else .idle } := by
  have hall : (∀ j, 1 ≤ j → j ≤ 64 → idbit d.rom j = idbit buf j) ↔ d.rom = buf :=
    ⟨ident_ext_idbit, fun h _ _ _ => by rw [h]⟩
  rw [positions, onWrite_matching c buf 63 1 rfl]
  simp only [hall]

/-- Settles O19: the match byte sets every device comparing, and the 64 bits of `ID` leave selected those that have them. -/
theorem matchSelectsExactlyTheNamedDevices : Obligations.MatchSelectsExactlyTheNamedDevices := by
  unfold Obligations.MatchSelectsExactlyTheNamedDevices
  intro s r hspu henv hdev _ hsearch halarm
  have hpresence : (!(busReset s.cfg s.line).1) = false := by
    rw [(busReset_presence_reference s.cfg henv).mpr (.inl hdev)]
    rfl
  have hdecode : ∀ d : Device, d.decodeWire s.cfg s.cfg.cmdMatch = .matching 1 := by
    intro d
    rw [Device.decodeWire, if_neg hsearch, if_neg halarm, if_pos rfl]
  have hexec := exec_matchId_free hspu
  rw [matchIdBody_eq hpresence] at hexec
  refine ⟨_, { r with settled := true, devices := _ }, hexec, rfl, ?_, rfl⟩
  show (writeIdent _ _ _).env = _
  rw [writeIdent_env_bits, writeByte_env_command _ _ (busReset_env_reference _ henv), afterWrite_foldl, List.map_map]
  simp only [Function.comp_def, hdecode, onWrite_identity]

end Sys2Proof.Machine
end

section
/-! Search passes (43_discovery.md R152 to R155): the refusal without a cursor, the three ends of a pass that is not refused, and
what a pass does not depend on (R159). -/
namespace Sys2Proof.Machine

theorem exec_passCmd (alarm : Bool) (s : State) : exec (passCmd alarm) s = .next (searchPass alarm s) := by
  cases alarm <;> rfl

/-! ### The refusal -/

theorem searchPass_noCursor (alarm : Bool) {s : State} (hspu : s.spu = false) (hfork : s.fork = 0#8) :
    searchPass alarm s = { s with res := 0x03#8 } := by
  rw [searchPass, unlessHeld_free hspu, searchPassBody, if_pos hfork]
  rfl

/-- Settles O34: both variants test `FORK` before anything else they do. -/
theorem passWithoutCursorIsRefused : Obligations.PassWithoutCursorIsRefused := by
  unfold Obligations.PassWithoutCursorIsRefused
  refine ⟨rfl, fun s hspu hfork => ⟨?_, ?_⟩⟩
  · rw [exec_eq_effect, effect, searchPass_noCursor false hspu hfork]
  · rw [exec_eq_effect, effect, searchPass_noCursor true hspu hfork]

/-! ### The three ends -/

/-- The end of a pass that answered every position, as one record. -/
theorem finishPass_eq (alarm : Bool) (nf : Nat) (s : State) :
    finishPass alarm nf s = { s with
      prev := s.id
      fork := BitVec.ofNat 8 nf
      crc := crc8Ident s.cfg s.id
      res := if crc8Ident s.cfg s.id = 0x00#8 then 0x00#8 else 0x02#8
      cntN := if crc8Ident s.cfg s.id = 0x00#8 ∧ alarm = false then s.cntN + 1 else s.cntN
      cntA := if crc8Ident s.cfg s.id = 0x00#8 ∧ alarm = true then s.cntA + 1 else s.cntA } := by
  unfold finishPass acceptIfZero
  dsimp only
  by_cases hcrc : crc8Ident s.cfg s.id = 0x00#8
  · cases alarm <;> simp [hcrc, countAccepted, endWith, ResultCode.code]
  · simp [hcrc, raiseCrcMismatch, endWith, ResultCode.code]

/-- A pass after a presence, in terms of what its loop gives. -/
theorem searchBody_eq {alarm : Bool} {s : State} {r : LoopResult}
    (hr : searchLoop s.cfg s.fork.toNat s.prev (List.range' 1 64) 0 (writeByte s.cfg (searchByte s.cfg alarm) s.line)
      Ident.zero = r) :
    searchBody alarm s =
      match r.ending with
      | .noResponse _ => { s with line := r.line, id := r.id, res := 0x01#8, flags := s.flags ||| 0x08#8 }
      | .complete nf => finishPass alarm nf { s with line := r.line, id := r.id } := by
  subst hr
  rfl

theorem searchPass_of_noPresence (alarm : Bool) {s : State} (hspu : s.spu = false) (hfork : s.fork ≠ 0#8)
    (hp : (busReset s.cfg s.line).1 = false) :
    searchPass alarm s =
      { s with line := (busReset s.cfg s.line).2, res := 0x01#8, flags := s.flags ||| 0x08#8 } := by
  simp only [searchPass, unlessHeld_free hspu, searchPassBody, if_neg hfork, hp]
  rfl

theorem searchPass_of_presence (alarm : Bool) {s : State} (hspu : s.spu = false) (hfork : s.fork ≠ 0#8)
    (hp : (busReset s.cfg s.line).1 = true) :
    searchPass alarm s = searchBody alarm { s with line := (busReset s.cfg s.line).2 } := by
  simp only [searchPass, unlessHeld_free hspu, searchPassBody, if_neg hfork, hp, if_true]

/-- The three ends of a pass that is not refused. `a j` and `b j` are what it read at position `j`. -/
inductive PassEnd (alarm : Bool) (s : State) : State → Prop where
  | noPresence (l : Line) (hdq : l.dqLow = false) (htrace : l.trace = resetEvents s.cfg true ++ s.line.trace) :
      PassEnd alarm s { s with line := l, res := 0x01#8, flags := s.flags ||| 0x08#8 }
  | noResponse (l : Line) (i : Nat) (a b : Nat → Bool) (buf : Ident) (hdq : l.dqLow = false) (hi : 1 ≤ i) (hi' : i ≤ 64)
      (htrace : l.trace = readSlotEvents s.cfg true ++ readSlotEvents s.cfg true ++ passEvents s.cfg a b buf (i - 1) ++
        byteFrameEvents s.cfg (searchByte s.cfg alarm) ++ resetEvents s.cfg false ++ s.line.trace)
      (hbelow : ∀ j, 1 ≤ j → j < i →
        (a j && b j) = false ∧ idbit buf j = chosenBit s.fork.toNat s.prev j (a j) (b j))
      (hfrom : ∀ j, i ≤ j → j ≤ 64 → idbit buf j = false) :
      PassEnd alarm s { s with line := l, res := 0x01#8, flags := s.flags ||| 0x08#8, id := buf }
  | complete (l : Line) (a b : Nat → Bool) (buf : Ident) (f crc : Byte) (hdq : l.dqLow = false)
      (hcrc : crc = crc8Ident s.cfg buf)
      (htrace : l.trace = passEvents s.cfg a b buf 64 ++ byteFrameEvents s.cfg (searchByte s.cfg alarm) ++
        resetEvents s.cfg false ++ s.line.trace)
      (hbits : ∀ j, 1 ≤ j → j ≤ 64 →
        (a j && b j) = false ∧ idbit buf j = chosenBit s.fork.toNat s.prev j (a j) (b j))
      (hhighest : ∀ j, 1 ≤ j → j ≤ 64 → a j = false → b j = false → idbit buf j = false → j ≤ f.toNat)
      (hfork : f = 0#8 ∨ (1 ≤ f.toNat ∧ f.toNat ≤ 64 ∧ a f.toNat = false ∧ b f.toNat = false ∧ idbit buf f.toNat = false)) :
      PassEnd alarm s { s with
        line := l, id := buf, prev := buf, fork := f, crc := crc, res := if crc = 0x00#8 then 0x00#8 else 0x02#8
        cntN := if crc = 0x00#8 ∧ alarm = false then s.cntN + 1 else s.cntN
        cntA := if crc = 0x00#8 ∧ alarm = true then s.cntA + 1 else s.cntA }

/-- The two ends of the loop are the two ends of a pass that saw presence. -/
theorem passEnd_searchBody (alarm : Bool) {s : State} (hp : (busReset s.cfg s.line).1 = true) :
    PassEnd alarm s (searchBody alarm { s with line := (busReset s.cfg s.line).2 }) := by
  obtain ⟨a, b, r, hr, -, hcomplete | hopen⟩ := searchLoop_cases s.cfg s.fork.toNat s.prev 64 1 0
    (writeByte s.cfg (searchByte s.cfg alarm) (busReset s.cfg s.line).2) Ident.zero (by decide) (by decide)
  · obtain ⟨nf, hend, htrace, hdq, hbits, -, hopen, hnf⟩ := hcomplete
    have hnf64 : (BitVec.ofNat 8 nf).toNat = nf := by
      rw [BitVec.toNat_ofNat]
      exact Nat.mod_eq_of_lt (by obtain ⟨h, -⟩ | ⟨-, h, -⟩ := hnf <;> omega)
    rw [searchBody_eq (s := { s with line := (busReset s.cfg s.line).2 }) hr, hend]
    dsimp only
    rw [finishPass_eq]
    refine .complete r.line a b r.id (BitVec.ofNat 8 nf) _ (hdq (by simp)) rfl ?_ ?_ ?_ ?_
    · simp [htrace, hp, passEvents]
    · exact fun j h1 h2 => hbits j h1 (by omega)
    · rw [hnf64]
      exact fun j h1 h2 ha hb hz => hopen j h1 (by omega) (by rw [ha, hb]) hz
    · rw [hnf64]
      obtain ⟨rfl, -⟩ | ⟨h1, h2, hab, hz⟩ := hnf
      · exact .inl rfl
      · have hboth := (hbits nf h1 h2).1
        rw [← hab, Bool.and_self] at hboth
        exact .inr ⟨h1, by omega, hboth, by rw [← hab, hboth], hz⟩
  · obtain ⟨i, hend, hi, hi', -, -, htrace, hdq, hbelow, hfrom⟩ := hopen
    rw [searchBody_eq (s := { s with line := (busReset s.cfg s.line).2 }) hr, hend]
    refine .noResponse r.line i a b r.id hdq hi (by omega) ?_ hbelow ?_
    · simp [htrace, hp, passEvents]
    · exact fun j h1 h2 => (hfrom j h1 h2).trans (idbit_zero j)

/-- Every pass that is not refused. -/
theorem passEnd_searchPass (alarm : Bool) {s : State} (hspu : s.spu = false) (hfork : s.fork ≠ 0#8) :
    PassEnd alarm s (searchPass alarm s) := by
  cases hp : (busReset s.cfg s.line).1 with
  | false =>
    rw [searchPass_of_noPresence alarm hspu hfork hp]
    exact .noPresence _ (busReset_dqLow _ _) (by simp [hp])
  | true =>
    rw [searchPass_of_presence alarm hspu hfork hp]
    exact passEnd_searchBody alarm hp

/-- Settles O35: the three ends are those of `PassEnd`. -/
theorem searchPassEndsInOneOfThreeWays : Obligations.SearchPassEndsInOneOfThreeWays := by
  unfold Obligations.SearchPassEndsInOneOfThreeWays
  intro s alarm hspu hfork
  rw [exec_passCmd]
  have hend := passEnd_searchPass alarm hspu hfork
  generalize searchPass alarm s = t at hend
  cases hend with
  | noPresence l hdq htrace => exact ⟨l, hdq, .inl ⟨rfl, htrace⟩⟩
  | noResponse l i a b buf hdq hi hi' htrace hbelow hfrom =>
    exact ⟨l, hdq, .inr (.inl ⟨i, a, b, buf, hi, hi', rfl, htrace, hbelow, hfrom⟩)⟩
  | complete l a b buf f crc hdq hcrc htrace hbits hhighest hf =>
    exact ⟨l, hdq, .inr (.inr ⟨a, b, buf, f, crc, rfl, hcrc, htrace, hbits, hhighest, hf⟩)⟩

/-! ### What a pass does not depend on -/

/-- Two passes that emitted the same events, ended the same way and left the same cursor, and the same identity and fold unless
they ended in a bus fault. -/
abbrev SamePass (t u : State) : Prop :=
  u.line = t.line ∧ u.res = t.res ∧ u.fork = t.fork ∧ u.prev = t.prev ∧ u.flags = t.flags ∧ u.cntN = t.cntN ∧
  u.cntA = t.cntA ∧ (t.res ≠ 0x01#8 → u.id = t.id ∧ u.crc = t.crc)

/-- The working buffer is cleared before the loop, and the fold is computed anew. -/
theorem samePass_searchBody (alarm : Bool) (s : State) (buf : Ident) (d c : Byte) :
    SamePass (searchBody alarm s) (searchBody alarm { s with id := buf, data := d, crc := c }) := by
  rw [searchBody_eq rfl, searchBody_eq rfl]
  dsimp only
  split
  · exact ⟨rfl, rfl, rfl, rfl, rfl, rfl, rfl, fun h => absurd rfl h⟩
  · rw [finishPass_eq, finishPass_eq]
    exact ⟨rfl, rfl, rfl, rfl, rfl, rfl, rfl, fun _ => ⟨rfl, rfl⟩⟩

/-- Settles O36: the reset pulse is a matter of the line, the loop starts from a cleared buffer. -/
theorem passDependsOnlyOnTheCursor : Obligations.PassDependsOnlyOnTheCursor := by
  unfold Obligations.PassDependsOnlyOnTheCursor
  intro s alarm buf d c hspu hfork
  refine ⟨_, _, exec_passCmd _ _, exec_passCmd _ _, ?_⟩
  cases hp : (busReset s.cfg s.line).1 with
  | false =>
    rw [searchPass_of_noPresence alarm hspu hfork hp,
      searchPass_of_noPresence (s := { s with id := buf, data := d, crc := c }) alarm hspu hfork hp]
    exact ⟨rfl, rfl, rfl, rfl, rfl, rfl, rfl, fun h => absurd rfl h⟩
  | true =>
    rw [searchPass_of_presence alarm hspu hfork hp,
      searchPass_of_presence (s := { s with id := buf, data := d, crc := c }) alarm hspu hfork hp]
    exact samePass_searchBody alarm { s with line := (busReset s.cfg s.line).2 } buf d c

/-! ### A line stuck low -/

/-- Every sample of the line is answered low (20_memory.md R71). -/
def Line.StuckLow (l : Line) : Prop := ∃ r, l.env = .reference r ∧ r.stuckLow = true

/-- From a stuck line to a stuck line, with no sample high in between. -/
def Line.ReadsLow (l l' : Line) : Prop :=
  l.StuckLow → l'.StuckLow ∧ ∃ new, l'.trace = new ++ l.trace ∧ .smp true ∉ new

theorem readsLow_refl (l : Line) : Line.ReadsLow l l := fun h => ⟨h, [], rfl, by simp⟩

theorem readsLow_trans {a b d : Line} (h : Line.ReadsLow a b) (h' : Line.ReadsLow b d) : Line.ReadsLow a d := by
  intro ha
  obtain ⟨hb, n, hn, hlow⟩ := h ha
  obtain ⟨hd, m, hm, hlow'⟩ := h' hb
  exact ⟨hd, m ++ n, by rw [hm, hn, List.append_assoc], by simp [hlow, hlow']⟩

theorem writeBit_readsLow (c : Config) (b : Bool) (l : Line) : Line.ReadsLow l (writeBit c b l) := by
  rintro ⟨r, henv, hr⟩
  refine ⟨⟨{ r with devices := r.devices.map (Device.onWrite c b) }, ?_, hr⟩, _, writeBit_trace c b l, ?_⟩
  · rw [writeBit_env, henv, Environment.afterWrite]
  · cases b <;> simp [writeSlotEvents]

theorem answer_of_stuckLow {r : Reference} (h : r.stuckLow = true) (k : SampleKind) (free : Bool) :
    (Environment.reference r).answer k free = false := by
  simp [Environment.answer, Reference.answer, h]

theorem readBit_readsLow (c : Config) (l : Line) : Line.ReadsLow l (readBit c l).2 := by
  rintro ⟨r, henv, hr⟩
  refine ⟨⟨r.afterSample .readSlot, by rw [readBit_env, henv, Environment.afterSample], hr⟩, _, readBit_trace c l, ?_⟩
  rw [readBit_level, henv, answer_of_stuckLow hr]
  simp [readSlotEvents]

theorem busReset_readsLow (c : Config) (l : Line) : Line.ReadsLow l (busReset c l).2 := by
  rintro ⟨r, henv, hr⟩
  refine ⟨⟨r.afterSample .presence, by rw [busReset_env, henv, Environment.afterSample], hr⟩, _, busReset_trace c l, ?_⟩
  rw [busReset_presence, henv, answer_of_stuckLow hr]
  simp [resetEvents]

theorem writeByte_readsLow (c : Config) (v : Byte) (l : Line) : Line.ReadsLow l (writeByte c v l) := by
  unfold writeByte
  induction frameBits generalizing l with
  | nil => exact readsLow_refl l
  | cons k ks ih => exact readsLow_trans (writeBit_readsLow c _ l) (ih _)

theorem searchLoop_readsLow (c : Config) (fork : Nat) (prev : Ident) (is : List Nat) (nf : Nat) (l : Line) (buf : Ident) :
    Line.ReadsLow l (searchLoop c fork prev is nf l buf).line := by
  induction is generalizing nf l buf with
  | nil => exact readsLow_refl l
  | cons i is ih =>
    have hreads := readsLow_trans (readBit_readsLow c l) (readBit_readsLow c (readBit c l).2)
    unfold searchLoop
    dsimp only
    split
    · exact hreads
    · exact readsLow_trans (readsLow_trans hreads (writeBit_readsLow c _ _)) (ih _ _ _)

theorem searchBody_readsLow (alarm : Bool) (s : State) : Line.ReadsLow s.line (searchBody alarm s).line := by
  have h := readsLow_trans (writeByte_readsLow s.cfg (searchByte s.cfg alarm) s.line)
    (searchLoop_readsLow s.cfg s.fork.toNat s.prev (List.range' 1 64) 0 _ Ident.zero)
  rw [searchBody_eq rfl]
  split
  · exact h
  · rwa [finishPass_line]

theorem searchPass_readsLow (alarm : Bool) {s : State} (hspu : s.spu = false) (hfork : s.fork ≠ 0#8) :
    Line.ReadsLow s.line (searchPass alarm s).line := by
  cases hp : (busReset s.cfg s.line).1 with
  | false =>
    rw [searchPass_of_noPresence alarm hspu hfork hp]
    exact busReset_readsLow s.cfg s.line
  | true =>
    rw [searchPass_of_presence alarm hspu hfork hp]
    exact readsLow_trans (busReset_readsLow s.cfg s.line)
      (searchBody_readsLow alarm { s with line := (busReset s.cfg s.line).2 })

/-- The reads of a pass stand in its trace. -/
theorem smp_mem_passEvents (c : Config) (a b : Nat → Bool) (buf : Ident) {n j : Nat} (hj : 1 ≤ j) (hn : j ≤ n) :
    .smp (a j) ∈ passEvents c a b buf n ∧ .smp (b j) ∈ passEvents c a b buf n := by
  have htriplet : ∀ x ∈ tripletEvents c (a j) (b j) (idbit buf j), x ∈ passEvents c a b buf n := by
    intro x hx
    refine List.mem_flatten.mpr ⟨_, List.mem_reverse.mpr (List.mem_map.mpr ⟨j, ?_, rfl⟩), hx⟩
    exact List.mem_range'_1.mpr ⟨hj, by omega⟩
  exact ⟨htriplet _ (by simp [tripletEvents, readSlotEvents]), htriplet _ (by simp [tripletEvents, readSlotEvents])⟩

/-- A fold of zero bytes from zero is zero (42_crc8.md R145). -/
theorem crc8Ident_zero {c : Config} (h : c.crcInit = 0x00#8) : crc8Ident c Ident.zero = 0x00#8 := by
  have hstep : crc8Step c.crcPoly 0#8 0#8 = 0#8 := by
    have hshift : crcShift c.crcPoly 0#8 = 0#8 := rfl
    rw [crc8Step, BitVec.xor_self]
    exact Function.iterate_fixed hshift 8
  rw [crc8Ident_eq_foldl, h]
  simp [Ident.zero, hstep]

/-- Settles O37: no sample of the pass is high, so neither fault can end it and every triplet of the third end is a fork. -/
theorem stuckLowLineWalksTheBitStrings : Obligations.StuckLowLineWalksTheBitStrings := by
  unfold Obligations.StuckLowLineWalksTheBitStrings
  intro s r alarm hspu henv hstuck hfork
  refine ⟨_, exec_passCmd alarm s, ?_⟩
  obtain ⟨-, new, hnew, hlow⟩ := searchPass_readsLow alarm hspu hfork ⟨r, henv, hstuck⟩
  have hend := passEnd_searchPass alarm hspu hfork
  generalize searchPass alarm s = t at hend hnew
  cases hend with
  | noPresence l hdq htrace =>
    obtain rfl := List.append_cancel_right (htrace.symm.trans hnew)
    simp [resetEvents] at hlow
  | noResponse l i a b buf hdq hi hi' htrace hbelow hfrom =>
    obtain rfl := List.append_cancel_right (htrace.symm.trans hnew)
    simp [readSlotEvents] at hlow
  | complete l a b buf f crc hdq hcrc htrace hbits hhighest hf =>
    obtain rfl := List.append_cancel_right (htrace.symm.trans hnew)
    simp only [List.mem_append, not_or] at hlow
    have hforks : ∀ j, 1 ≤ j → j ≤ 64 → a j = false ∧ b j = false := by
      intro j h1 h2
      obtain ⟨ha, hb⟩ := smp_mem_passEvents s.cfg a b buf h1 h2
      constructor
      · exact Bool.eq_false_iff.mpr fun h => hlow.1.1 (h ▸ ha)
      · exact Bool.eq_false_iff.mpr fun h => hlow.1.1 (h ▸ hb)
    have hid : ∀ j, 1 ≤ j → j ≤ 64 →
        idbit buf j = if j < s.fork.toNat then idbit s.prev j else decide (j = s.fork.toNat) := by
      intro j h1 h2
      obtain ⟨ha, hb⟩ := hforks j h1 h2
      rw [(hbits j h1 h2).2, chosenBit, ha, hb]
      simp
    have hhigh : ∀ j, 1 ≤ j → j ≤ 64 → idbit buf j = false → j ≤ f.toNat := fun j h1 h2 hz =>
      hhighest j h1 h2 (hforks j h1 h2).1 (hforks j h1 h2).2 hz
    have hzero : f = 0#8 ∨ (1 ≤ f.toNat ∧ f.toNat ≤ 64 ∧ idbit buf f.toNat = false) := by
      obtain h | ⟨h1, h2, -, -, hz⟩ := hf
      · exact .inl h
      · exact .inr ⟨h1, h2, hz⟩
    refine ⟨?_, rfl, hid, hhigh, hzero, fun h65 hprev hinit => ?_⟩
    · dsimp only
      split <;> decide
    · have hbuf : buf = Ident.zero := by
        refine ident_ext_idbit fun j h1 h2 => ?_
        rw [hid j h1 h2, h65, if_pos (by simpa using Nat.lt_succ_of_le h2), hprev]
      have hf64 : f = 64#8 := by
        have h64 := hhigh 64 (by decide) (by decide) (by rw [hbuf]; exact idbit_zero 64)
        obtain rfl | ⟨-, h, -⟩ := hzero
        · exact absurd h64 (by decide)
        · exact BitVec.eq_of_toNat_eq (Nat.le_antisymm h h64)
      have hcrc0 : crc = 0x00#8 := by rw [hcrc, hbuf, crc8Ident_zero hinit]
      exact ⟨hbuf, hf64, hcrc0, if_pos hcrc0⟩

/-! ### An alarm pass with nobody in alarm -/

/-- Devices that take no part leave the line high in a read slot, and stay as they are. -/
theorem readBit_idle (c : Config) {l : Line} {ds : List Device} (hidle : ∀ d ∈ ds, d.st = .idle)
    (henv : l.env = .reference ⟨ds, false, true⟩) :
    (readBit c l).1 = true ∧ (readBit c l).2.env = .reference ⟨ds, false, true⟩ := by
  constructor
  · rw [readBit_level, henv]
    simp only [Environment.answer, Reference.answer, Bool.false_eq_true, if_false, if_true, List.all_eq_true]
    intro d hd
    simp [Device.sends, hidle d hd]
  · rw [readBit_env, henv]
    simp only [Environment.afterSample, Reference.afterSample]
    rw [List.map_congr_left (g := id) fun d hd => by simp [Device.onRead, hidle d hd], List.map_id]

/-- With nobody taking part the loop ends at its first position. -/
theorem searchLoop_idle (c : Config) (fork : Nat) (prev : Ident) (i nf : Nat) {n : Nat} (hn : n ≠ 0) {l : Line} (buf : Ident)
    {ds : List Device} (hidle : ∀ d ∈ ds, d.st = .idle) (henv : l.env = .reference ⟨ds, false, true⟩) :
    searchLoop c fork prev (List.range' i n) nf l buf = ⟨.noResponse i, (readBit c (readBit c l).2).2, buf⟩ ∧
      (readBit c (readBit c l).2).2.trace = readSlotEvents c true ++ readSlotEvents c true ++ l.trace := by
  obtain ⟨ha, henv'⟩ := readBit_idle c hidle henv
  obtain ⟨hb, -⟩ := readBit_idle c hidle henv'
  constructor
  · obtain ⟨m, rfl⟩ := Nat.exists_eq_succ_of_ne_zero hn
    simp [List.range'_succ, searchLoop, ha, hb]
  · rw [readBit_trace, hb, readBit_trace, ha, List.append_assoc]

/-- Settles O38: the alarm byte makes every device idle, so both reads of the first triplet are 1. -/
theorem alarmPassWithNobodyInAlarmFaults : Obligations.AlarmPassWithNobodyInAlarmFaults := by
  unfold Obligations.AlarmPassWithNobodyInAlarmFaults
  intro s r hspu hfork henv hstuck hdev halarm hbyte
  have hp : (busReset s.cfg s.line).1 = true := (busReset_presence_reference s.cfg henv).mpr (.inl hdev)
  have hdecode : ∀ d ∈ r.devices, d.decodeWire s.cfg (searchByte s.cfg true) = .idle := by
    intro d hd
    rw [searchByte, if_pos rfl, Device.decodeWire, if_neg hbyte, if_pos rfl, halarm d hd, if_neg Bool.false_ne_true]
  have henv' : (writeByte s.cfg (searchByte s.cfg true) (busReset s.cfg s.line).2).env =
      .reference ⟨r.devices.map fun d => { d with st := .idle }, false, true⟩ := by
    rw [writeByte_env_command _ _ (busReset_env_reference _ henv), hstuck]
    congr 2
    exact List.map_congr_left fun d hd => by rw [hdecode d hd]
  obtain ⟨hloop, htrace⟩ := searchLoop_idle s.cfg s.fork.toNat s.prev 1 0 (n := 64) (by decide) Ident.zero (by simp) henv'
  refine ⟨_, ?_, htrace.trans (by simp [hp, searchByte])⟩
  rw [exec_eq_effect, effect, searchPass_of_presence true hspu hfork hp,
    searchBody_eq (s := { s with line := (busReset s.cfg s.line).2 }) hloop]

end Sys2Proof.Machine
end

section
/-! The command codec (30_encoding.md R90 to R97): `encode` and `decode` are inverse to each other on the 17 opcodes. -/
namespace Sys2Proof.Machine

theorem decode_encode (i : Instr) : decode (encode i) = .ok i := by cases i <;> rfl

/-- A byte that decodes is the one opcode of its command. -/
theorem encode_of_decode {b : Byte} {i : Instr} (h : decode b = .ok i) : encode i = b := by
  unfold decode at h
  split at h
  case h_18 => cases h
  all_goals
    rename_i hb
    cases h
    exact BitVec.eq_of_toNat_eq hb.symm

theorem instr_wellFormed (i : Instr) : i.wellFormed = true := by cases i <;> rfl

/-- Settles O1: the six words, each read by the opcode map. -/
theorem tableWordsDecode : Obligations.TableWordsDecode := by
  unfold Obligations.TableWordsDecode
  exact ⟨rfl, rfl, rfl, rfl, rfl, rfl⟩

/-- Settles O2: the two directions of the codec; at the head of a byte sequence the decoder reads one byte. -/
theorem decodeAndEncodeAgree : Obligations.DecodeAndEncodeAgree := by
  unfold Obligations.DecodeAndEncodeAgree
  refine ⟨fun i _ => ⟨decode_encode i, fun rest => ?_⟩, fun b i h => ⟨encode_of_decode h, instr_wellFormed i⟩⟩
  rw [decodeBytes, decode_encode]

/-- Settles O4: delivering the host's write of an opcode is running the command it decodes to. -/
theorem stepRunsTheDecodedCommand : Obligations.StepRunsTheDecodedCommand := by
  unfold Obligations.StepRunsTheDecodedCommand
  intro s v i rest hin hv
  rw [step_cmdInput hin, cmdEffect, hv, exec_eq_effect]

end Sys2Proof.Machine
end

section
/-! The register space (20_memory.md R61, R65; 30_encoding.md R91): what each offset reads as and what a host write stores. -/
namespace Sys2Proof.Machine

/-! ### The bytes of the map -/

theorem pullByte_eq (spu dqLow : Bool) : pullByte spu dqLow = (if dqLow then 2 else 0) + (if spu then 1 else 0) := by
  cases spu <;> cases dqLow <;> decide

theorem tctrlByte_eq (t : TickState) :
    tctrlByte t = (if t.tpend then 4 else 0) + (if t.tf then 2 else 0) + (if t.tie then 1 else 0) := by
  unfold tctrlByte
  cases t.tie <;> cases t.tf <;> cases t.tpend <;> decide

theorem byteOf16_eq (v : BitVec 16) (k : Nat) : byteOf16 v k = BitVec.ofNat 8 (v.toNat / 2 ^ (8 * k)) := by
  rw [byteOf16, BitVec.extractLsb', Nat.shiftRight_eq_div_pow]

theorem byteOf32_eq (v : BitVec 32) (k : Nat) : byteOf32 v k = BitVec.ofNat 8 (v.toNat / 2 ^ (8 * k)) := by
  rw [byteOf32, BitVec.extractLsb', Nat.shiftRight_eq_div_pow]

theorem ofNat_mod_256 (n : Nat) : BitVec.ofNat 8 (n % 256) = BitVec.ofNat 8 n :=
  BitVec.eq_of_toNat_eq (by simp)

/-- Every row of the table is what the machine reads at its offset. -/
theorem readReg_of_mem_registerTable (s : State) : ∀ p ∈ registerTable s, readReg s p.1 = p.2 := by
  simp only [registerTable, List.forall_mem_append, List.forall_mem_cons, List.not_mem_nil, ofNat_mod_256]
  simp [readReg, pullByte_eq, tctrlByte_eq, byteOf16_eq, byteOf32_eq, identByte]

theorem step_read {s : State} {off : Nat} {rest : List Input} (hoff : off ≤ 0x2F)
    (h : s.inputs = .port (.access (.read off 1)) :: rest) : step s = .next (hostRead off { s with inputs := rest }) :=
  (step_cons h).trans (portEvent_read hoff _)

/-- Settles O5: the table has the 48 offsets in order, and each of its rows is what a read gives. -/
theorem readReturnsTheMappedByte : Obligations.ReadReturnsTheMappedByte := by
  unfold Obligations.ReadReturnsTheMappedByte
  intro s rest
  have hoffsets : (registerTable s).map Prod.fst = List.range 48 := rfl
  refine ⟨hoffsets, fun off b hmem hin => ?_⟩
  have hoff : off ∈ List.range 48 := hoffsets ▸ List.mem_map_of_mem hmem
  have hread : readReg s off = b := readReg_of_mem_registerTable s (off, b) hmem
  rw [step_read (Nat.le_of_lt_succ (List.mem_range.mp hoff)) hin, ← hread]
  rfl

/-! ### Host writes -/

theorem readOnlyOffset_bounds {off : Nat} (h : readOnlyOffset off = true) :
    off ≠ 0x00 ∧ off ≤ 0x2F ∧ ¬ (0x10 ≤ off ∧ off ≤ 0x17) := by
  simp only [readOnlyOffset, Bool.or_eq_true, Bool.and_eq_true, decide_eq_true_eq] at h
  omega

theorem writeReg_of_readOnly {off : Nat} (h : readOnlyOffset off = true) (v : Byte) (s : State) : writeReg off v s = s := by
  obtain ⟨-, -, hid⟩ := readOnlyOffset_bounds h
  unfold writeReg
  rw [if_neg hid]
  split
  case h_4 => rfl
  -- the three other offsets are writable
  all_goals exact absurd h (by decide)

/-- Settles O6: a write that is not refused and not of `CMD` reaches `writeReg`, which stores only at writable offsets. -/
theorem writeToReadOnlyOffsetIsIgnored : Obligations.WriteToReadOnlyOffsetIsIgnored := by
  unfold Obligations.WriteToReadOnlyOffsetIsIgnored
  intro s off v rest h hin
  obtain ⟨h0, hoff, -⟩ := readOnlyOffset_bounds h
  rw [step_write h0 hoff hin, writeReg_of_readOnly h]

/-- `DATA` shows at its own offset alone. -/
theorem readReg_data {off : Nat} (h : off ≠ 0x02) (s : State) (v : Byte) :
    readReg { s with data := v } off = readReg s off := by
  unfold readReg
  dsimp only
  split
  · rfl
  · split
    · rfl
    · split
      case h_3 => exact absurd rfl h
      all_goals rfl

/-- `CRC` shows at its own offset alone. -/
theorem readReg_crc {off : Nat} (h : off ≠ 0x05) (s : State) (v : Byte) :
    readReg { s with crc := v } off = readReg s off := by
  unfold readReg
  dsimp only
  split
  · rfl
  · split
    · rfl
    · split
      case h_6 => exact absurd rfl h
      all_goals rfl

theorem readReg_identByte {off : Nat} (h : 0x10 ≤ off ∧ off ≤ 0x17) (s : State) :
    readReg s off = identByte s.id (off - 0x10) := if_pos h

theorem readReg_of_not_id {off : Nat} (h : ¬ (0x10 ≤ off ∧ off ≤ 0x17)) (s : State) (b : Ident) :
    readReg { s with id := b } off = readReg s off := by
  unfold readReg
  rw [if_neg h, if_neg h]

/-- A byte of `ID` shows at its own offset alone. -/
theorem readReg_setIdentByte {off : Nat} (h : 0x10 ≤ off ∧ off ≤ 0x17) (v : Byte) (s : State) (other : Nat) :
    readReg { s with id := setIdentByte s.id (off - 0x10) v } other = if other = off then v else readReg s other := by
  by_cases hother : 0x10 ≤ other ∧ other ≤ 0x17
  · rw [readReg_identByte hother, readReg_identByte hother, identByte_setIdentByte _ _ _ _ (by omega)]
    simp only [show other - 0x10 = off - 0x10 ↔ other = off by omega]
  · rw [readReg_of_not_id hother, if_neg (show other ≠ off by rintro rfl; exact hother h)]

theorem storingOffset_cases {off : Nat} (h : storingOffset off = true) :
    off = 0x02 ∨ off = 0x05 ∨ (0x10 ≤ off ∧ off ≤ 0x17) := by
  simpa [storingOffset, or_assoc] using h

/-- Settles O7: each of the ten writes stores one byte, and the map shows that byte at one offset. -/
theorem writtenByteReadsBack : Obligations.WrittenByteReadsBack := by
  unfold Obligations.WrittenByteReadsBack
  intro s off v rest h hin
  obtain rfl | rfl | hid := storingOffset_cases h
  · exact ⟨v, s.crc, s.id, step_write (by decide) (by decide) hin, rfl, fun other _ hne => readReg_data hne s v⟩
  · exact ⟨s.data, v, s.id, step_write (by decide) (by decide) hin, rfl, fun other _ hne => readReg_crc hne s v⟩
  · refine ⟨s.data, s.crc, setIdentByte s.id (off - 0x10) v, ?_, ?_, fun other _ hne => ?_⟩
    · exact (step_write (by omega) (by omega) hin).trans (congrArg _ (if_pos hid))
    · exact (readReg_setIdentByte hid v s off).trans (if_pos rfl)
    · exact (readReg_setIdentByte hid v s other).trans (if_neg hne)

/-! ### Accesses to this block and to others -/

/-- Every input but an access to another block gives a next state. -/
theorem step_of_not_foreign {s : State} {x : Input} {rest : List Input} (hin : s.inputs = x :: rest)
    (h : x.foreign = false) : ∃ t, step s = .next t := by
  rw [step_cons hin]
  obtain ((⟨off, w⟩ | ⟨off, w, v⟩) | _) | d | ⟨v, n⟩ | e := x
  · obtain ⟨rfl, hoff⟩ : w = 1 ∧ off ≤ 0x2F := by simpa [Input.foreign, inBlock] using h
    exact ⟨_, portEvent_read hoff _⟩
  · obtain ⟨rfl, hoff⟩ : w = 1 ∧ off ≤ 0x2F := by simpa [Input.foreign, inBlock] using h
    by_cases h0 : off = 0x00
    · subst h0
      exact ⟨_, portEvent_cmd v _⟩
    · exact ⟨_, portEvent_write h0 hoff v _⟩
  · exact ⟨_, rfl⟩
  · exact ⟨_, rfl⟩
  · exact ⟨_, by rw [deliver, resetDuring, writeCmd_eq_cmdEffect]⟩
  · exact ⟨_, rfl⟩

theorem step_of_no_input {s : State} (h : s.inputs = []) : step s = .next s := by
  rw [step, h]

theorem hostAccess_of_width {a : Access} {off w : Nat} (ha : a = .read off w ∨ ∃ v, a = .write off w v) (hw : w ≠ 1)
    (s : State) : hostAccess a s = .refused (.accessWidth w) := by
  obtain rfl | ⟨v, rfl⟩ := ha <;> exact if_pos hw

theorem hostAccess_outside {a : Access} {off : Nat} (ha : a = .read off 1 ∨ ∃ v, a = .write off 1 v) (hoff : 0x2F < off)
    (s : State) : hostAccess a s = .refused (.outsideBlock off) := by
  have hout : inBlock off = false := by simpa [inBlock] using hoff
  obtain rfl | ⟨v, rfl⟩ := ha <;> simp [hostAccess, hout]

/-- Settles O8: the two refusals are the only answers that are no next state. -/
theorem onlyForeignAccessesStop : Obligations.OnlyForeignAccessesStop := by
  unfold Obligations.OnlyForeignAccessesStop
  intro s
  constructor
  · intro a off w rest hin ha
    refine ⟨fun hw => (step_cons hin).trans (hostAccess_of_width ha hw _), ?_⟩
    rintro rfl hoff
    exact (step_cons hin).trans (hostAccess_outside ha hoff _)
  · intro hown
    cases hin : s.inputs with
    | nil => exact ⟨s, step_of_no_input hin⟩
    | cons x rest =>
      refine step_of_not_foreign hin ?_
      obtain ((⟨off, w⟩ | ⟨off, w, v⟩) | _) | d | ⟨v, n⟩ | e := x
      · obtain ⟨rfl, hoff⟩ := hown _ off w rest hin (.inl rfl)
        simpa [Input.foreign, inBlock] using hoff
      · obtain ⟨rfl, hoff⟩ := hown _ off w rest hin (.inr ⟨v, rfl⟩)
        simpa [Input.foreign, inBlock] using hoff
      all_goals rfl

/-- Settles O10: the line, the parameters, the values read and the inputs to come are no elements that a reset writes. -/
theorem resetLeavesTheLineAlone : Obligations.ResetLeavesTheLineAlone := by
  unfold Obligations.ResetLeavesTheLineAlone
  intro s during rest hin
  exact ⟨_, step_blockReset hin, rfl, rfl, rfl, rfl⟩

end Sys2Proof.Machine
end

section
/-! What a command and a step may write (10_state.md section 9, 60_exceptions.md R190): result codes, flags, and the owner of each
element. -/
namespace Sys2Proof.Machine

/-! ### Commands -/

/-- `FLAGS` after the command `i` ended with the result `r` in the state `s` (10_state.md R26, 60_exceptions.md R191). -/
def flagsAfter (i : Instr) (r : Byte) (s : State) : Byte :=
  if r = 0x01#8 then setBusErr s.flags
  else
    match i with
    | .setRdy => setReady s.flags s.data
    | .clrErr => clearBusErr s.flags
    | _ => s.flags

theorem flagsAfter_busFault (i : Instr) (s : State) : flagsAfter i 0x01#8 s = setBusErr s.flags := if_pos rfl

/-- What the command `i` started in `s` may have written where it leaves `t`: a result code that it can end with, `FLAGS` as the
result says, nothing but `RES` where it is refused; `SPU` and the cursor if they are its own. -/
structure CommandLeaves (i : Instr) (s t : State) : Prop where
  res : t.res ∈ possibleResults i
  flags : t.flags = flagsAfter i t.res s
  refusal : t.res = 0x03#8 ∨ t.res = 0x04#8 → t = { s with res := t.res }
  spu : i ≠ .spuOn → i ≠ .spuOff → t.spu = s.spu
  cursor : i.fields.fam ≠ 3 → t.fork = s.fork ∧ t.prev = s.prev
  fork : t.fork = s.fork ∨ t.fork = s.cfg.forkStart ∨ t.fork.toNat ≤ 64

/-- Only the two flag commands write `FLAGS` without a bus fault, and both always end with `OK`. -/
theorem flagsAfter_of_failure {i : Instr} {r : Byte} (hr : r ∈ possibleResults i) (hok : r ≠ 0x00#8) (hfault : r ≠ 0x01#8)
    (s : State) : flagsAfter i r s = s.flags := by
  cases i
  case setRdy | clrErr => exact absurd (List.mem_singleton.mp hr) hok
  all_goals exact if_neg hfault

/-- A refused command has written `RES` alone. -/
theorem commandLeaves_refused {i : Instr} {r : Byte} (hr : r ∈ possibleResults i) (hi : r = 0x03#8 ∨ r = 0x04#8) (s : State) :
    CommandLeaves i s { s with res := r } where
  res := hr
  flags := by
    have hne : r ≠ 0x00#8 ∧ r ≠ 0x01#8 := by obtain rfl | rfl := hi <;> decide
    exact (flagsAfter_of_failure hr hne.1 hne.2 s).symm
  refusal := fun _ => rfl
  spu := fun _ _ => rfl
  cursor := fun _ => ⟨rfl, rfl⟩
  fork := .inl rfl

theorem commandLeaves_unlessHeld {i : Instr} {s : State} {body : State → State} (hi : 0x04#8 ∈ possibleResults i)
    (h : CommandLeaves i s (body s)) : CommandLeaves i s (unlessHeld s body) := by
  unfold unlessHeld
  split
  · exact commandLeaves_refused hi (.inr rfl) s
  · exact h

/-- A command that is not refused and writes neither `SPU` nor the cursor. -/
theorem commandLeaves_of_frame {i : Instr} {s t : State} (r : Byte) (hr : r ∈ possibleResults i)
    (hnot : r ≠ 0x03#8 ∧ r ≠ 0x04#8) (hres : t.res = r) (hflags : t.flags = flagsAfter i r s) (hspu : t.spu = s.spu)
    (hfork : t.fork = s.fork) (hprev : t.prev = s.prev) : CommandLeaves i s t where
  res := hres ▸ hr
  flags := by rw [hflags, hres]
  refusal := by
    rw [hres]
    rintro (h | h)
    · exact absurd h hnot.1
    · exact absurd h hnot.2
  spu := fun _ _ => hspu
  cursor := fun _ => ⟨hfork, hprev⟩
  fork := .inl hfork

theorem commandLeaves_busResetBody (s : State) : CommandLeaves .busReset s (busResetBody s) := by
  rw [busResetBody_eq rfl]
  cases (busReset s.cfg s.line).1 with
  | false => exact commandLeaves_of_frame 0x01#8 (by decide) (by decide) rfl rfl rfl rfl rfl
  | true => exact commandLeaves_of_frame 0x00#8 (by decide) (by decide) rfl rfl rfl rfl rfl

theorem commandLeaves_matchIdBody (s : State) : CommandLeaves .matchId s (matchIdBody s) := by
  rw [matchIdBody_eq rfl]
  cases (busReset s.cfg s.line).1 with
  | false => exact commandLeaves_of_frame 0x01#8 (by decide) (by decide) rfl rfl rfl rfl rfl
  | true => exact commandLeaves_of_frame 0x00#8 (by decide) (by decide) rfl rfl rfl rfl rfl

theorem possibleResults_passCmd (alarm : Bool) :
    possibleResults (passCmd alarm) = [0x00#8, 0x01#8, 0x02#8, 0x03#8, 0x04#8] := by cases alarm <;> rfl

theorem flagsAfter_passCmd (alarm : Bool) (r : Byte) (s : State) :
    flagsAfter (passCmd alarm) r s = if r = 0x01#8 then setBusErr s.flags else s.flags := by cases alarm <;> rfl

theorem passCmd_fam (alarm : Bool) : (passCmd alarm).fields.fam = 3 := by cases alarm <;> rfl

/-- The three ends of a pass write the cursor as their own, and end with the codes of a pass. -/
theorem commandLeaves_of_passEnd {alarm : Bool} {s t : State} (h : PassEnd alarm s t) : CommandLeaves (passCmd alarm) s t := by
  cases h with
  | noPresence | noResponse =>
    exact commandLeaves_of_frame 0x01#8 (by simp [possibleResults_passCmd]) (by decide) rfl (flagsAfter_busFault _ s).symm
      rfl rfl rfl
  | complete l a b buf f crc hdq hcrc htrace hbits hhighest hf =>
    have hres := ite_eq_or_eq (crc = 0x00#8) 0x00#8 0x02#8
    refine ⟨?_, ?_, ?_, fun _ _ => rfl, fun h => absurd (passCmd_fam alarm) h, .inr (.inr ?_)⟩
    · rw [possibleResults_passCmd]
      obtain h | h := hres <;> simp [h]
    · rw [flagsAfter_passCmd]
      obtain h | h := hres <;> simp [h]
    · dsimp only
      obtain h | h := hres <;> simp [h]
    · obtain rfl | ⟨-, h64, -⟩ := hf
      · exact Nat.zero_le 64
      · exact h64

theorem commandLeaves_searchPass (alarm : Bool) (s : State) : CommandLeaves (passCmd alarm) s (searchPass alarm s) := by
  have hcodes : 0x03#8 ∈ possibleResults (passCmd alarm) ∧ 0x04#8 ∈ possibleResults (passCmd alarm) := by
    simp [possibleResults_passCmd]
  cases hspu : s.spu with
  | true =>
    rw [searchPass, unlessHeld_held hspu]
    exact commandLeaves_refused hcodes.2 (.inr rfl) s
  | false =>
    by_cases hfork : s.fork = 0#8
    · rw [searchPass_noCursor alarm hspu hfork]
      exact commandLeaves_refused hcodes.1 (.inl rfl) s
    · exact commandLeaves_of_passEnd (passEnd_searchPass alarm hspu hfork)

/-- Every command. -/
theorem commandLeaves_effect (i : Instr) (s : State) : CommandLeaves i s (effect i s) := by
  cases i
  case busReset => exact commandLeaves_unlessHeld (by decide) (commandLeaves_busResetBody s)
  case matchId => exact commandLeaves_unlessHeld (by decide) (commandLeaves_matchIdBody s)
  case srchPass => exact commandLeaves_searchPass false s
  case srchPassA => exact commandLeaves_searchPass true s
  case writeBit | readBit | writeByte | readByte =>
    rw [effect]
    refine commandLeaves_unlessHeld (by decide) ?_
    exact commandLeaves_of_frame 0x00#8 (by decide) (by decide) rfl rfl rfl rfl rfl
  case crcId =>
    rw [effect, acceptIfZero_id]
    by_cases hcrc : crc8Ident s.cfg s.id = 0x00#8
    · exact commandLeaves_of_frame 0x00#8 (by decide) (by decide) (if_pos hcrc) rfl rfl rfl rfl
    · exact commandLeaves_of_frame 0x02#8 (by decide) (by decide) (if_neg hcrc) rfl rfl rfl rfl
  case crcStep | sync | setRdy | clrErr =>
    exact commandLeaves_of_frame 0x00#8 (by decide) (by decide) rfl rfl rfl rfl rfl
  case spuOn => exact ⟨.head _, rfl, nofun, fun h => absurd rfl h, fun _ => ⟨rfl, rfl⟩, .inl rfl⟩
  case spuOff => exact ⟨.head _, rfl, nofun, fun _ h => absurd rfl h, fun _ => ⟨rfl, rfl⟩, .inl rfl⟩
  case srchStart | srchStartA =>
    exact ⟨.head _, rfl, nofun, fun _ _ => rfl, fun h => absurd rfl h, .inr (.inl rfl)⟩

/-- Settles O52: the codes, flags and refusals are those of `CommandLeaves`. -/
theorem everyCommandEndsWithItsCode : Obligations.EveryCommandEndsWithItsCode := by
  unfold Obligations.EveryCommandEndsWithItsCode
  intro i s
  obtain ⟨hres, hflags, hrefusal, -, -, -⟩ := commandLeaves_effect i s
  refine ⟨effect i s, exec_eq_effect i s, hres, fun h => ?_, fun h => ?_, hrefusal⟩
  · rw [hflags, h, flagsAfter_busFault]
    rfl
  · rw [hflags, h, flagsAfter_of_failure (h ▸ hres) (by decide) (by decide)]

/-! ### Inputs -/

/-- What each input does, said of the state `s` from which the input has been taken. -/
inductive Delivers (s : State) : Input → State → Prop where
  | command (i : Instr) : Delivers s (cmdInput (encode i)) (effect i { s with cmd := encode i })
  | illegal (v : Byte) : Delivers s (cmdInput v) { s with cmd := v, res := 0xFF#8 }
  | write (off : Nat) (v : Byte) : Delivers s (.port (.access (.write off 1 v))) (writeReg off v s)
  | read (off : Nat) : Delivers s (.port (.access (.read off 1))) (hostRead off s)
  | timerTick : Delivers s (.port .timerTick) (timerTick s)
  | blockReset (d : List PortEvent) : Delivers s (.blockReset d) (blockReset s)
  | resetDuring (v : Byte) (n : Nat) (l : Line) : Delivers s (.resetDuring v n) (blockReset { s with line := l })
  | environment (e : Environment) : Delivers s (.environment e) (setEnvironment e s)

theorem delivers_cmdEffect (v : Byte) (s : State) : Delivers s (cmdInput v) (cmdEffect v s) := by
  unfold cmdEffect
  split
  · rename_i i hv
    obtain rfl := encode_of_decode hv
    exact .command i
  · exact .illegal v

theorem delivers_of_step {s t : State} {x : Input} {rest : List Input} (hin : s.inputs = x :: rest)
    (h : step s = .next t) : Delivers { s with inputs := rest } x t := by
  obtain ⟨hnil, -⟩ | ⟨e, rest', hin', hport⟩ | ⟨d, rest', hin', rfl⟩ | ⟨v, n, rest', hin', rfl⟩ | ⟨e, rest', hin', rfl⟩ :=
    step_cases h
  · rw [hin] at hnil
    cases hnil
  all_goals
    rw [hin] at hin'
    obtain ⟨rfl, rfl⟩ := List.cons.inj hin'
  · obtain ⟨v, rfl, rfl⟩ | ⟨off, v, rfl, -, -, rfl⟩ | ⟨off, rfl, -, rfl⟩ | ⟨rfl, rfl⟩ := portEvent_cases hport
    · exact delivers_cmdEffect v _
    · exact .write off v
    · exact .read off
    · exact .timerTick
  · exact .blockReset d
  · exact .resetDuring v n _
  · exact .environment e

theorem effect_keeps (i : Instr) (s : State) :
    (effect i s).cfg = s.cfg ∧ (effect i s).reads = s.reads ∧ (effect i s).inputs = s.inputs := by
  obtain ⟨_, _, _, _, _, _, _, _, _, _, _, _, h⟩ := effect_writes i s
  rw [h]
  exact ⟨rfl, rfl, rfl⟩

@[simp] theorem writeReg_inputs (off : Nat) (v : Byte) (s : State) : (writeReg off v s).inputs = s.inputs := by
  obtain ⟨d, c, b, h⟩ | ⟨-, h⟩ := writeReg_cases off v s <;> rw [h]

/-- No input adds to the inputs still to come. -/
theorem delivers_inputs {s t : State} {x : Input} (h : Delivers s x t) : t.inputs = s.inputs := by
  cases h with
  | command i => exact (effect_keeps i _).2.2
  | write off v => exact writeReg_inputs off v s
  | illegal | read | timerTick | blockReset | resetDuring | environment => rfl

/-! ### Flags -/

theorem getLsbD_setBusErr (f : Byte) {k : Nat} (hk : k < 8) :
    (setBusErr f).getLsbD k = (f.getLsbD k || decide (k = 3)) := by
  have hmask : ∀ k < 8, (0x08 : Byte).getLsbD k = decide (k = 3) := by decide
  rw [setBusErr, BitVec.getLsbD_or, hmask k hk]

/-- The four things a step that is no reset can do to `FLAGS`. -/
theorem delivers_flags {s t : State} {x : Input} (h : Delivers s x t) (hreset : ∀ d, x ≠ .blockReset d)
    (hcut : ∀ v n, x ≠ .resetDuring v n) :
    t.flags = s.flags ∨ (t.flags = setBusErr s.flags ∧ t.res = 0x01#8 ∧ ∃ v, x = cmdInput v) ∨
    (t.flags = setReady s.flags s.data ∧ x = cmdInput 0x50#8) ∨ (t.flags = clearBusErr s.flags ∧ x = cmdInput 0x51#8) := by
  cases h with
  | command i =>
    obtain ⟨-, hflags, -⟩ := commandLeaves_effect i { s with cmd := encode i }
    by_cases hres : (effect i { s with cmd := encode i }).res = 0x01#8
    · rw [hres, flagsAfter_busFault] at hflags
      exact .inr (.inl ⟨hflags, hres, _, rfl⟩)
    · cases i
      case setRdy => exact .inr (.inr (.inl ⟨rfl, rfl⟩))
      case clrErr => exact .inr (.inr (.inr ⟨rfl, rfl⟩))
      all_goals exact .inl (hflags.trans (if_neg hres))
  | write off v => exact .inl (by obtain ⟨d, c, b, h⟩ | ⟨-, h⟩ := writeReg_cases off v s <;> rw [h])
  | blockReset d => exact absurd rfl (hreset d)
  | resetDuring v n => exact absurd rfl (hcut v n)
  | illegal | read | timerTick | environment => exact .inl rfl

/-- Settles O53: each of the four things a step can do to `FLAGS`, bit by bit, keeps to the columns of the table. -/
theorem flagsChangeOnlyAsTheirTableSays : Obligations.FlagsChangeOnlyAsTheirTableSays := by
  unfold Obligations.FlagsChangeOnlyAsTheirTableSays
  intro s t x rest hin hstep hreset hcut
  obtain hf | ⟨hf, hres, hx⟩ | ⟨hf, hx⟩ | ⟨hf, hx⟩ := delivers_flags (delivers_of_step hin hstep) hreset hcut
  · rw [hf]
    simp +contextual
  · have hbit : ∀ k < 8, t.flags.getLsbD k = (s.flags.getLsbD k || decide (k = 3)) := fun k hk => by
      rw [hf, getLsbD_setBusErr _ hk]
    grind
  · have hbit : ∀ k < 8, t.flags.getLsbD k = (s.flags.getLsbD k || (decide (k < 3) && s.data.getLsbD k)) := fun k hk => by
      rw [hf, getLsbD_setReady _ _ hk]
    grind
  · have hbit : ∀ k < 8, t.flags.getLsbD k = (s.flags.getLsbD k && decide (k ≠ 3)) := fun k hk => by
      rw [hf, getLsbD_clearBusErr _ hk]
    grind

end Sys2Proof.Machine
end

section
/-! Who writes what over a step that is no reset (10_state.md section 9). -/
namespace Sys2Proof.Machine

/-! ### The tick group -/

@[simp] theorem timerEvent_tie (w : Nat) (t : TickState) : (timerEvent w t).tie = t.tie := by
  unfold timerEvent; split <;> rfl

@[simp] theorem timerEvent_sec (w : Nat) (t : TickState) : (timerEvent w t).sec = t.sec := by
  unfold timerEvent; split <;> rfl

@[simp] theorem timerEvent_snap (w : Nat) (t : TickState) : (timerEvent w t).snap = t.snap := by
  unfold timerEvent; split <;> rfl

@[simp] theorem writeTctrl_sec (w : Nat) (v : Byte) (t : TickState) : (writeTctrl w v t).sec = t.sec :=
  serveHeld_sec w _

@[simp] theorem writeTctrl_snap (w : Nat) (v : Byte) (t : TickState) : (writeTctrl w v t).snap = t.snap :=
  serveHeld_snap w _

@[simp] theorem writeTctrl_tie (w : Nat) (v : Byte) (t : TickState) : (writeTctrl w v t).tie = v.getLsbD 0 :=
  serveHeld_tie w _

/-- Where serving changes the counter, an event was held. -/
theorem tpend_of_serveHeld_tick {w : Nat} {t : TickState} (h : (serveHeld w t).tick ≠ t.tick) : t.tpend = true := by
  obtain hsame | ⟨-, htpend, -⟩ := serveHeld_tick w t
  · exact absurd hsame h
  · exact htpend

theorem effect_sync_ticks (s : State) :
    (effect .sync s).ticks = serveHeld s.cfg.tickWindow (tickTaken s.ticks) := by
  rw [effect, syncState_ticks, syncTicks_eq_serveHeld]

/-! ### The owners -/

/-- Each element that differs in `t` from `s` has its owner in the input `x`. -/
structure OwnersWrite (s : State) (x : Input) (t : State) : Prop where
  spu : t.spu ≠ s.spu → x = cmdInput 0x16#8 ∨ x = cmdInput 0x17#8
  cursor : t.fork ≠ s.fork ∨ t.prev ≠ s.prev →
    x = cmdInput 0x30#8 ∨ x = cmdInput 0x31#8 ∨ x = cmdInput 0x32#8 ∨ x = cmdInput 0x33#8
  sync : t.ticks.sec ≠ s.ticks.sec ∨ t.ticks.snap ≠ s.ticks.snap → x = cmdInput 0x40#8
  tie : t.ticks.tie ≠ s.ticks.tie → ∃ v, x = .port (.access (.write 0x20 1 v))
  tick : t.ticks.tick ≠ s.ticks.tick →
    x = .port .timerTick ∨ (s.ticks.tpend = true ∧ (x = cmdInput 0x40#8 ∨ ∃ v, x = .port (.access (.write 0x20 1 v))))

/-- An input that writes the tick group alone. -/
theorem ownersWrite_of_ticks {s : State} {x : Input} {t : State} (hspu : t.spu = s.spu) (hfork : t.fork = s.fork)
    (hprev : t.prev = s.prev)
    (hsync : t.ticks.sec ≠ s.ticks.sec ∨ t.ticks.snap ≠ s.ticks.snap → x = cmdInput 0x40#8)
    (htie : t.ticks.tie ≠ s.ticks.tie → ∃ v, x = .port (.access (.write 0x20 1 v)))
    (htick : t.ticks.tick ≠ s.ticks.tick →
      x = .port .timerTick ∨ (s.ticks.tpend = true ∧ (x = cmdInput 0x40#8 ∨ ∃ v, x = .port (.access (.write 0x20 1 v))))) :
    OwnersWrite s x t :=
  ⟨fun h => absurd hspu h, fun h => absurd ⟨hfork, hprev⟩ (not_and_or.mpr h), hsync, htie, htick⟩

/-- An input that writes none of these elements. -/
theorem ownersWrite_of_same {s : State} {x : Input} {t : State} (hspu : t.spu = s.spu) (hfork : t.fork = s.fork)
    (hprev : t.prev = s.prev) (hticks : t.ticks = s.ticks) : OwnersWrite s x t := by
  apply ownersWrite_of_ticks hspu hfork hprev <;> simp [hticks]

/-- The opcodes of family 3. -/
theorem encode_of_fam_three {i : Instr} (h : i.fields.fam = 3) :
    encode i = 0x30#8 ∨ encode i = 0x31#8 ∨ encode i = 0x32#8 ∨ encode i = 0x33#8 := by
  cases i <;> revert h <;> decide

theorem ownersWrite_effect (i : Instr) (s : State) : OwnersWrite s (cmdInput (encode i)) (effect i s) := by
  obtain ⟨-, -, -, hspu, hcursor, -⟩ := commandLeaves_effect i s
  by_cases hsync : i = .sync
  · subst hsync
    obtain ⟨hfork, hprev⟩ := hcursor (by decide)
    refine ownersWrite_of_ticks (hspu nofun nofun) hfork hprev (fun _ => rfl) (fun h => absurd ?_ h)
      fun h => .inr ⟨?_, .inl rfl⟩
    · rw [effect_sync_ticks, serveHeld_tie]
      rfl
    · rw [effect_sync_ticks] at h
      exact tpend_of_serveHeld_tick (t := tickTaken s.ticks) h
  · have hticks := effect_ticks hsync s
    refine ⟨fun h => ?_, fun h => ?_, by simp [hticks], by simp [hticks], by simp [hticks]⟩
    · by_contra hne
      obtain ⟨hon, hoff⟩ := not_or.mp hne
      exact h (hspu (by rintro rfl; exact hon rfl) (by rintro rfl; exact hoff rfl))
    · have hfam : i.fields.fam = 3 := by
        by_contra hne
        exact absurd (hcursor hne) (not_and_or.mpr h)
      obtain h | h | h | h := encode_of_fam_three hfam <;> simp [h]

theorem ownersWrite_writeReg (off : Nat) (v : Byte) (s : State) :
    OwnersWrite s (.port (.access (.write off 1 v))) (writeReg off v s) := by
  obtain ⟨d, c, b, h⟩ | ⟨rfl, h⟩ := writeReg_cases off v s <;> rw [h]
  · exact ownersWrite_of_same rfl rfl rfl rfl
  · refine ownersWrite_of_ticks rfl rfl rfl (by simp) (fun _ => ⟨v, rfl⟩) fun h => .inr ⟨?_, .inr ⟨v, rfl⟩⟩
    exact tpend_of_serveHeld_tick (t := { s.ticks with tie := v.getLsbD 0 }) h

/-- Settles O54: the owners, input by input. -/
theorem onlyTheOwnersWrite : Obligations.OnlyTheOwnersWrite := by
  unfold Obligations.OnlyTheOwnersWrite
  intro s t x rest hin hstep hreset hcut
  suffices h : OwnersWrite { s with inputs := rest } x t by
    obtain ⟨hspu, hcursor, hsync, htie, htick⟩ := h
    exact ⟨hspu, hcursor, hsync, htie, htick⟩
  cases delivers_of_step hin hstep with
  | command i =>
    obtain ⟨hspu, hcursor, hsync, htie, htick⟩ := ownersWrite_effect i { s with inputs := rest, cmd := encode i }
    exact ⟨hspu, hcursor, hsync, htie, htick⟩
  | write off v => exact ownersWrite_writeReg off v _
  | timerTick => exact ownersWrite_of_ticks rfl rfl rfl (by simp) (by simp) fun _ => .inl rfl
  | illegal | read | environment => exact ownersWrite_of_same rfl rfl rfl rfl
  | blockReset d => exact absurd rfl (hreset d)
  | resetDuring v n => exact absurd rfl (hcut v n)

/-- Settles O47: with `TIE = 0` a pulse is held and nothing that is held is served. -/
theorem protectedSectionHoldsTheCounterStill : Obligations.ProtectedSectionHoldsTheCounterStill := by
  unfold Obligations.ProtectedSectionHoldsTheCounterStill
  intro s t x rest hin htie hstep hset hreset hcut
  cases delivers_of_step hin hstep with
  | command i =>
    by_cases hsync : i = .sync
    · subst hsync
      have hserved : serveHeld s.cfg.tickWindow (tickTaken s.ticks) = tickTaken s.ticks := by
        rw [serveHeld_eq_ite, if_neg (by simp [tickTaken, htie])]
      rw [effect_sync_ticks]
      dsimp only
      rw [hserved]
      exact ⟨htie, rfl, nofun⟩
    · rw [effect_ticks hsync]
      exact ⟨htie, rfl, id⟩
  | write off v =>
    obtain ⟨d, c, b, h⟩ | ⟨rfl, h⟩ := writeReg_cases off v { s with inputs := rest } <;> rw [h]
    · exact ⟨htie, rfl, id⟩
    · have hv : ¬ (v &&& 1#8 = 1#8) := by rw [hset v rfl]; decide
      simp [writeTctrl_eq_ite, hv]
  | timerTick => simp [timerEvent, htie]
  | illegal | read | environment => exact ⟨htie, rfl, id⟩
  | blockReset d => exact absurd rfl (hreset d)
  | resetDuring v n => exact absurd rfl (hcut v n)

end Sys2Proof.Machine
end

section
/-! The invariant of the block (Safety.lean): it holds at reset, every input keeps it, and so a run inside the block never stops. -/
namespace Sys2Proof.Machine

/-! ### The tick group -/

/-- The part of the invariant that speaks of the tick group (44_tick_sync.md R177 (h)). -/
def TickState.Safe (w : Nat) (t : TickState) : Prop := t.tick.toNat < w ∧ (t.tpend = true → t.tie = false)

section
variable {w : Nat} {t : TickState} (hw : w ≤ 2 ^ 16) (ht : t.tick.toNat < w)
include hw ht

theorem isrAction_tick_lt : (isrAction w t).tick.toNat < w := by
  rw [isrAction_tick_toNat (Nat.zero_lt_of_lt ht) hw]
  exact Nat.mod_lt _ (Nat.zero_lt_of_lt ht)

/-- Leaving a section makes the tick group safe, whatever was held. -/
theorem safe_serveHeld : (serveHeld w t).Safe w := by
  refine ⟨?_, serveHeld_tpend w t⟩
  obtain ⟨-, -, h⟩ | ⟨-, h⟩ := serveHeld_cases w t <;> rw [h]
  · exact isrAction_tick_lt (t := { t with tpend := false }) hw ht
  · exact ht

end

theorem safe_timerEvent {w : Nat} {t : TickState} (hw : w ≤ 2 ^ 16) (ht : t.Safe w) : (timerEvent w t).Safe w := by
  obtain ⟨htick, htpend⟩ := ht
  unfold timerEvent
  split
  · exact ⟨isrAction_tick_lt hw htick, htpend⟩
  · rename_i htie
    exact ⟨htick, fun _ => Bool.not_eq_true _ ▸ htie⟩

/-! ### Flags and results -/

/-- The reserved bits of `FLAGS`, one by one. -/
theorem reserved_eq_zero_iff (f : Byte) : f &&& 0xF0#8 = 0#8 ↔ ∀ k, 4 ≤ k → k < 8 → f.getLsbD k = false := by
  have hmask : ∀ k < 8, (0xF0#8).getLsbD k = decide (4 ≤ k) := by decide
  constructor
  · intro h k h4 h8
    have hk := congrArg (BitVec.getLsbD · k) h
    simpa [hmask k h8, h4] using hk
  · intro h
    refine BitVec.eq_of_getLsbD_eq fun k h8 => ?_
    by_cases h4 : 4 ≤ k
    · simp [h k h4 h8]
    · simp [hmask k h8, h4]

/-- No command writes the reserved bits of `FLAGS`. -/
theorem reserved_flagsAfter (i : Instr) (r : Byte) {s : State} (h : s.flags &&& 0xF0#8 = 0#8) :
    flagsAfter i r s &&& 0xF0#8 = 0#8 := by
  rw [reserved_eq_zero_iff] at h ⊢
  intro k h4 h8
  have hbit := h k h4 h8
  unfold flagsAfter
  split
  · simp [getLsbD_setBusErr _ h8, hbit]
    omega
  · split
    · simp [getLsbD_setReady _ _ h8, hbit]
      omega
    · simp [getLsbD_clearBusErr _ h8, hbit]
    · exact hbit

theorem resultCode_of_possible {i : Instr} {r : Byte} (h : r ∈ possibleResults i) :
    r ∈ [0x00#8, 0x01#8, 0x02#8, 0x03#8, 0x04#8, 0xFF#8] := by
  have hcodes : possibleResults i ⊆ [0x00#8, 0x01#8, 0x02#8, 0x03#8, 0x04#8, 0xFF#8] := by cases i <;> decide
  exact hcodes h

/-! ### The invariant -/

theorem inv_blockReset {s : State} (h : s.cfg.Admitted) : (blockReset s).Inv := by
  have hwindow : 0 < s.cfg.tickWindow := Nat.zero_lt_of_lt (admitted_window h).1
  exact ⟨h, by simp, by simp, Nat.zero_le 65, rfl, hwindow, nofun⟩

theorem inv_effect (i : Instr) {s : State} (hs : s.Inv) : (effect i s).Inv := by
  obtain ⟨hcfg, -, hflags, hfork, hdq, htick, htpend⟩ := hs
  obtain ⟨hres', hflags', -, -, -, hfork'⟩ := commandLeaves_effect i s
  have hticks : (effect i s).ticks.Safe s.cfg.tickWindow := by
    by_cases hsync : i = .sync
    · subst hsync
      rw [effect_sync_ticks]
      exact safe_serveHeld (t := tickTaken s.ticks) (admitted_window hcfg).2 htick
    · rw [effect_ticks hsync]
      exact ⟨htick, htpend⟩
  have hcfg' := (effect_keeps i s).1
  refine ⟨hcfg' ▸ hcfg, resultCode_of_possible hres', ?_, ?_, dqLow_of_extends (effect_extends i s) hdq, ?_⟩
  · rw [hflags']
    exact reserved_flagsAfter i _ hflags
  · obtain h | h | h := hfork'
    · rwa [h]
    · rw [h, forkStart_of_admitted hcfg]
      decide
    · omega
  · rw [hcfg']
    exact hticks

theorem inv_of_ticks {s : State} {k : TickState} (hs : s.Inv) (hk : k.Safe s.cfg.tickWindow) : { s with ticks := k }.Inv := by
  obtain ⟨hcfg, hres, hflags, hfork, hdq, -⟩ := hs
  exact ⟨hcfg, hres, hflags, hfork, hdq, hk⟩

theorem inv_writeReg (off : Nat) (v : Byte) {s : State} (hs : s.Inv) : (writeReg off v s).Inv := by
  obtain ⟨d, c, b, h⟩ | ⟨-, h⟩ := writeReg_cases off v s <;> rw [h]
  · exact hs
  · obtain ⟨hcfg, -, -, -, -, htick, -⟩ := id hs
    exact inv_of_ticks hs (safe_serveHeld (t := { s.ticks with tie := v.getLsbD 0 }) (admitted_window hcfg).2 htick)

/-- Every input. -/
theorem inv_of_delivers {s t : State} {x : Input} (hs : s.Inv) (h : Delivers s x t) : t.Inv := by
  obtain ⟨hcfg, -, hflags, hfork, hdq, htick, htpend⟩ := id hs
  cases h with
  | command i => exact inv_effect i (s := { s with cmd := encode i }) hs
  | illegal v => exact ⟨hcfg, by simp, hflags, hfork, hdq, htick, htpend⟩
  | write off v => exact inv_writeReg off v hs
  | timerTick => exact inv_of_ticks hs (safe_timerEvent (admitted_window hcfg).2 ⟨htick, htpend⟩)
  | blockReset d => exact inv_blockReset hcfg
  | resetDuring v n l => exact inv_blockReset (s := { s with line := l }) hcfg
  | read | environment => exact hs

/-- Settles O59: a step delivers the next input, or has none and stays. -/
theorem stepKeepsTheInvariant : Obligations.StepKeepsTheInvariant := by
  unfold Obligations.StepKeepsTheInvariant
  intro s t hs hstep
  cases hin : s.inputs with
  | nil =>
    obtain rfl := Host.Outcome.next.inj ((step_of_no_input hin).symm.trans hstep)
    exact hs
  | cons x rest => exact inv_of_delivers (s := { s with inputs := rest }) hs (delivers_of_step hin hstep)

/-- Settles O58: the state at reset is one that a block reset leaves. -/
theorem invariantHoldsAtReset : Obligations.InvariantHoldsAtReset := by
  unfold Obligations.InvariantHoldsAtReset
  have hreset : ∀ c : Config, c.Admitted → (State.resetWith c).Inv := by
    intro c hc
    rw [← blockReset_resetWith]
    exact inv_blockReset hc
  have hnominal : Config.nominal.Admitted :=
    ⟨by decide, rfl, rfl, rfl, rfl, rfl, rfl, rfl, rfl, rfl, Nat.succ_pos _⟩
  exact ⟨hreset, hnominal, hreset _ hnominal⟩

/-! ### Runs -/

/-- A step inside the block gives a next state, whose inputs are still inside the block. -/
theorem step_inside {s : State} (hin : ∀ x ∈ s.inputs, x.foreign = false) :
    ∃ t, step s = .next t ∧ ∀ x ∈ t.inputs, x.foreign = false := by
  cases hinputs : s.inputs with
  | nil => exact ⟨s, step_of_no_input hinputs, hin⟩
  | cons x rest =>
    rw [hinputs] at hin
    obtain ⟨hx, hrest⟩ := List.forall_mem_cons.mp hin
    obtain ⟨t, hstep⟩ := step_of_not_foreign hinputs hx
    refine ⟨t, hstep, ?_⟩
    rw [delivers_inputs (delivers_of_step hinputs hstep)]
    exact hrest

/-- Settles O60: by induction on the length of the run, each step being inside the block and keeping the invariant. -/
theorem runsInsideTheBlockNeverStop : Obligations.RunsInsideTheBlockNeverStop := by
  unfold Obligations.RunsInsideTheBlockNeverStop
  intro k
  induction k with
  | zero => exact fun s hs _ => hs
  | succ k ih =>
    intro s hs hin
    obtain ⟨t, hstep, hin'⟩ := step_inside hin
    refine ⟨hs, ?_⟩
    rw [hstep]
    exact ih t (stepKeepsTheInvariant s t hs hstep) hin'

end Sys2Proof.Machine
end

section
/-! The tick interrupt, the synchroniser and the protected section over whole runs (44_tick_sync.md section 4). -/
namespace Sys2Proof.Machine

/-! ### A pulse inside `SYNC` -/

/-- Settles O43: with `TIE = 1` before the command the pulse is held and served at the end of the section, with `TIE = 0` it stays
held; both are what it does directly after the command. -/
theorem pulseInsideSyncIsOrderedAfterIt : Obligations.PulseInsideSyncIsOrderedAfterIt := by
  unfold Obligations.PulseInsideSyncIsOrderedAfterIt
  intro w t hsafe
  obtain ⟨tie, tf, tpend, tick, snap, sec⟩ := t
  cases tie with
  | true =>
    obtain rfl : tpend = false := by simpa using hsafe
    cases tf <;> exact ⟨rfl, rfl, rfl⟩
  | false => cases tf <;> exact ⟨rfl, rfl, rfl⟩

/-! ### A window of interrupt actions -/

theorem isrAction_iterate_tick {w : Nat} (hw : w ≤ 2 ^ 16) {t : TickState} (ht : t.tick.toNat < w) (k : Nat) :
    ((isrAction w)^[k] t).tick.toNat = (t.tick.toNat + k) % w := by
  induction k with
  | zero => exact (Nat.mod_eq_of_lt ht).symm
  | succ k ih =>
    rw [Function.iterate_succ_apply', isrAction_tick_toNat (Nat.zero_lt_of_lt ht) hw, ih, Nat.mod_add_mod, Nat.add_assoc]

/-- Counting on by less than a whole window does not come back. -/
theorem add_mod_ne_self {w n k : Nat} (hn : n < w) (hk : 0 < k) (hkw : k < w) : (n + k) % w ≠ n := by
  by_cases hsum : n + k < w
  · rw [Nat.mod_eq_of_lt hsum]
    omega
  · rw [Nat.mod_eq_sub_mod (by omega), Nat.mod_eq_of_lt (by omega)]
    omega

/-- Settles O44: the counter after `k` actions is its value plus `k`, modulo the window. -/
theorem windowOfTicksReturnsTheCounter : Obligations.WindowOfTicksReturnsTheCounter := by
  unfold Obligations.WindowOfTicksReturnsTheCounter
  intro c t hc ht
  have htick := isrAction_iterate_tick (admitted_window hc).2 ht
  refine ⟨BitVec.eq_of_toNat_eq ?_, fun k hk hkw h => ?_⟩
  · rw [htick, Nat.add_mod_right, Nat.mod_eq_of_lt ht]
  · exact add_mod_ne_self ht hk hkw ((htick k).symm.trans (congrArg BitVec.toNat h))

/-! ### Runs of port events -/

theorem runPort_cons {e : PortEvent} {es : List PortEvent} {s t : State} (h : runPort (e :: es) s = .next t) :
    ∃ u, portEvent e s = .next u ∧ runPort es u = .next t := by
  unfold runPort at h
  split at h
  · rename_i u hu
    exact ⟨u, hu, h⟩
  · cases h
  · cases h

/-- 1 if the event `e`, which left `t`, was a `SYNC` that reports a tick. -/
def reported (e : PortEvent) (t : State) : Nat := if e = cmd .sync ∧ t.data = 0x01#8 then 1 else 0

section
variable {e : PortEvent} {s u : State} (h : portEvent e s = .next u)
include h

theorem actionCount_cons (es : List PortEvent) :
    actionCount (e :: es) s = (runsAction s e).toNat + actionCount es u := by
  rw [actionCount, h]
  cases runsAction s e <;> rfl

theorem reportCount_cons (es : List PortEvent) : reportCount (e :: es) s = reported e u + reportCount es u := by
  rw [reportCount, h]
  rfl

theorem noneOvertaken_cons (es : List PortEvent) :
    noneOvertaken (e :: es) s =
      ((!runsAction s e || !s.ticks.tf || decide (e = cmd .sync)) && noneOvertaken es u) := by
  rw [noneOvertaken, h]

end

theorem reported_sync {t : State} {b : Bool} (h : t.data = zext8 b) : reported (cmd .sync) t = b.toNat := by
  cases b <;> simp [reported, h, zext8]

theorem reported_of_ne {e : PortEvent} (h : e ≠ cmd .sync) (t : State) : reported e t = 0 :=
  if_neg fun hboth => h hboth.1

/-! ### The account of a run -/

/-- The tick group after `a` interrupt actions and `r` reported ticks since the counter stood at `n₀` and the seconds at `sec₀`, no
tick having been overtaken: the counter has counted the actions, the seconds the windows among the ticks reported, and at most
one tick is still to be taken. -/
structure TickAccount (w n₀ : Nat) (sec₀ : BitVec 32) (a r : Nat) (t : TickState) : Prop where
  tick : t.tick.toNat = (n₀ + a) % w
  sec : t.sec = sec₀ + BitVec.ofNat 32 ((n₀ + r) / w)
  taken : r + t.tf.toNat = a

section
variable {w n₀ a r : Nat} {sec₀ : BitVec 32} {t : TickState} (h : TickAccount w n₀ sec₀ a r t)
include h

/-- The interrupt action after the tick before it was taken. -/
theorem account_isrAction (hw : 0 < w) (hw' : w ≤ 2 ^ 16) (htf : t.tf = false) :
    TickAccount w n₀ sec₀ (a + 1) r (isrAction w t) := by
  obtain ⟨htick, hsec, htaken⟩ := h
  refine ⟨?_, hsec, ?_⟩
  · rw [isrAction_tick_toNat hw hw', htick, Nat.mod_add_mod, Nat.add_assoc]
  · rw [htf] at htaken
    simpa using htaken

/-- Taking the tick that is there, if there is one: a second has passed if the counter stands at 0. -/
theorem account_tickTaken : TickAccount w n₀ sec₀ a (r + t.tf.toNat) (tickTaken t) := by
  obtain ⟨htick, hsec, htaken⟩ := h
  refine ⟨htick, ?_, by simpa [tickTaken] using htaken⟩
  cases htf : t.tf with
  | false => simpa [tickTaken, htf] using hsec
  | true =>
    rw [htf] at htaken
    have hzero : t.tick = 0#16 ↔ w ∣ n₀ + r + 1 := by
      rw [Nat.dvd_iff_mod_eq_zero, Nat.add_assoc, show r + 1 = a from htaken, ← htick]
      exact ⟨fun h => by rw [h]; rfl, fun h => BitVec.eq_of_toNat_eq h⟩
    show (if t.tf = true ∧ t.tick = 0#16 then t.sec + 1#32 else t.sec) = _
    simp only [htf, true_and, hzero, Bool.toNat_true, ← Nat.add_assoc, Nat.succ_div]
    split
    · rw [hsec, BitVec.ofNat_add, BitVec.add_assoc]
    · rw [hsec, Nat.add_zero]

end

/-- One port event that overtakes no tick. -/
theorem account_portEvent {n₀ a r : Nat} {sec₀ : BitVec 32} {e : PortEvent} {s t : State} (hc : s.cfg.Admitted)
    (hs : TickAccount s.cfg.tickWindow n₀ sec₀ a r s.ticks) (h : portEvent e s = .next t)
    (hover : (!runsAction s e || !s.ticks.tf || decide (e = cmd .sync)) = true) :
    TickAccount s.cfg.tickWindow n₀ sec₀ (a + (runsAction s e).toNat) (r + reported e t) t.ticks := by
  obtain ⟨hw, hw'⟩ := admitted_window hc
  obtain ⟨-, ⟨rfl, hdata, hticks, hact⟩ | ⟨hne, hact, htf, hsec, htick⟩ | ⟨hne, hact, htf, hsec, htick⟩⟩ := portEvent_ticks h
  · have htaken := account_tickTaken hs
    rw [hticks, syncTicks_eq_serveHeld, reported_sync hdata, hact]
    obtain ⟨htie, htpend, hserved⟩ | ⟨hheld, hsame⟩ := serveHeld_cases s.cfg.tickWindow (tickTaken s.ticks)
    · have hboth : (s.ticks.tpend && s.ticks.tie) = true := Bool.and_eq_true_iff.mpr ⟨htpend, htie⟩
      rw [hserved, hboth]
      exact account_isrAction (t := { tickTaken s.ticks with tpend := false }) ⟨htaken.tick, htaken.sec, htaken.taken⟩
        (by omega) hw' rfl
    · have hnone : (s.ticks.tpend && s.ticks.tie) = false := by
        cases htie : s.ticks.tie
        · exact Bool.and_false _
        · rw [Bool.and_true]
          exact hheld htie
      rw [hsame, hnone]
      exact htaken
  · have htf₀ : s.ticks.tf = false := by simpa [hact, hne] using hover
    have haction := account_isrAction hs (by omega) hw' htf₀
    rw [reported_of_ne hne, hact]
    exact ⟨by rw [htick, haction.tick]; rfl, by rw [hsec]; exact haction.sec, by rw [htf]; exact haction.taken⟩
  · rw [reported_of_ne hne, hact]
    exact ⟨htick ▸ hs.tick, hsec ▸ hs.sec, htf ▸ hs.taken⟩

/-- A run that overtakes no tick. -/
theorem account_runPort {n₀ a r : Nat} {sec₀ : BitVec 32} {es : List PortEvent} {s t : State} (hc : s.cfg.Admitted)
    (hs : TickAccount s.cfg.tickWindow n₀ sec₀ a r s.ticks) (h : runPort es s = .next t)
    (hover : noneOvertaken es s = true) :
    TickAccount s.cfg.tickWindow n₀ sec₀ (a + actionCount es s) (r + reportCount es s) t.ticks := by
  induction es generalizing s a r with
  | nil =>
    obtain rfl := Host.Outcome.next.inj h
    exact hs
  | cons e es ih =>
    obtain ⟨u, hu, hrun⟩ := runPort_cons h
    rw [noneOvertaken_cons hu, Bool.and_eq_true] at hover
    have hcfg := (portEvent_ticks hu).1
    have hstep := account_portEvent hc hs hu hover.1
    rw [← hcfg] at hc hstep ⊢
    rw [actionCount_cons hu, reportCount_cons hu, ← Nat.add_assoc, ← Nat.add_assoc]
    exact ih hc hstep hrun hover.2

/-- Settles O45: over one window of actions the account closes, the last tick being taken too. -/
theorem oneSecondPerWindowWhenEveryTickIsTaken : Obligations.OneSecondPerWindowWhenEveryTickIsTaken := by
  unfold Obligations.OneSecondPerWindowWhenEveryTickIsTaken
  intro s t es hc htick htf hrun hover htf' hcount
  have hw : 0 < s.cfg.tickWindow := Nat.zero_lt_of_lt htick
  have hstart : TickAccount s.cfg.tickWindow s.ticks.tick.toNat s.ticks.sec 0 0 s.ticks :=
    ⟨(Nat.mod_eq_of_lt htick).symm, by simp [Nat.div_eq_of_lt htick], by simp [htf]⟩
  obtain ⟨htick', hsec', htaken⟩ := account_runPort hc hstart hrun hover
  rw [htf', hcount] at htaken
  have hreports : reportCount es s = s.cfg.tickWindow := by simpa using htaken
  refine ⟨BitVec.eq_of_toNat_eq ?_, ?_, hreports⟩
  · rw [htick', hcount, Nat.zero_add, Nat.add_mod_right, Nat.mod_eq_of_lt htick]
  · rw [hsec', hreports, Nat.zero_add, Nat.add_div_right _ hw, Nat.div_eq_of_lt htick]

/-! ### Each tick is taken once -/

/-- Without an interrupt action a report uses up the tick that was there. -/
theorem reported_add_tf {e : PortEvent} {s t : State} (h : portEvent e s = .next t) (hact : runsAction s e = false) :
    reported e t + t.ticks.tf.toNat = s.ticks.tf.toNat := by
  obtain ⟨-, ⟨rfl, hdata, hticks, hact'⟩ | ⟨-, hact', -⟩ | ⟨hne, -, htf, -⟩⟩ := portEvent_ticks h
  · have hnone : (tickTaken s.ticks).tie = true → (tickTaken s.ticks).tpend = false := by
      intro htie
      have hboth : (s.ticks.tpend && s.ticks.tie) = false := hact'.symm.trans hact
      rwa [show s.ticks.tie = true from htie, Bool.and_true] at hboth
    have htaken : serveHeld s.cfg.tickWindow (tickTaken s.ticks) = tickTaken s.ticks := by
      rw [serveHeld_eq_ite, if_neg]
      rintro ⟨htie, htpend⟩
      rw [hnone htie] at htpend
      cases htpend
    rw [reported_sync hdata, hticks, syncTicks_eq_serveHeld]
    dsimp only
    rw [htaken]
    rfl
  · rw [hact] at hact'
    cases hact'
  · rw [reported_of_ne hne, htf, Nat.zero_add]

theorem reportCount_add_tf {es : List PortEvent} {s t : State} (h : runPort es s = .next t) (hact : actionCount es s = 0) :
    reportCount es s + t.ticks.tf.toNat = s.ticks.tf.toNat := by
  induction es generalizing s with
  | nil =>
    obtain rfl := Host.Outcome.next.inj h
    exact Nat.zero_add _
  | cons e es ih =>
    obtain ⟨u, hu, hrun⟩ := runPort_cons h
    rw [actionCount_cons hu, Nat.add_eq_zero_iff, Bool.toNat_eq_zero] at hact
    rw [reportCount_cons hu, Nat.add_assoc, ih hrun hact.2, reported_add_tf hu hact.1]

theorem reportCount_append {es : List PortEvent} {s t : State} (h : runPort es s = .next t) (fs : List PortEvent) :
    reportCount (es ++ fs) s = reportCount es s + reportCount fs t := by
  induction es generalizing s with
  | nil =>
    obtain rfl := Host.Outcome.next.inj h
    exact (Nat.zero_add _).symm
  | cons e es ih =>
    obtain ⟨u, hu, hrun⟩ := runPort_cons h
    rw [List.cons_append, reportCount_cons hu, reportCount_cons hu, ih hrun, Nat.add_assoc]

/-- One event reports at most the tick that it finds, also if an action runs in it. -/
theorem reportCount_singleton_le (e : PortEvent) (s : State) : reportCount [e] s ≤ s.ticks.tf.toNat := by
  cases h : portEvent e s with
  | next t =>
    rw [reportCount_cons h]
    obtain ⟨-, ⟨rfl, hdata, -⟩ | ⟨hne, -⟩ | ⟨hne, -⟩⟩ := portEvent_ticks h
    · exact (reported_sync hdata).le
    · exact (reported_of_ne hne t).le.trans (Nat.zero_le _)
    · exact (reported_of_ne hne t).le.trans (Nat.zero_le _)
  | fault r => cases r
  | refused r =>
    rw [reportCount, h]
    exact Nat.zero_le _

theorem exec_sync_eq (s : State) : exec .sync s =
    .next { s with
      data := zext8 s.ticks.tf, res := 0x00#8, ticks := serveHeld s.cfg.tickWindow (tickTaken s.ticks) } := by
  rw [exec_eq_effect, effect, syncState, syncTicks_eq_serveHeld]
  rfl

/-- Settles O46: over a run without an action, reports and the tick still to be taken add up to the tick that was there. -/
theorem eachTickIsTakenAtMostOnce : Obligations.EachTickIsTakenAtMostOnce := by
  unfold Obligations.EachTickIsTakenAtMostOnce
  constructor
  · intro s htpend
    refine ⟨_, exec_sync_eq s, ?_⟩
    have hsame : serveHeld s.cfg.tickWindow (tickTaken s.ticks) = tickTaken s.ticks := by
      rw [serveHeld_eq_ite, if_neg (by simp [tickTaken, htpend])]
    dsimp only
    rw [hsame]
    exact ⟨rfl, htpend⟩
  · intro s t es hrun hact
    have hsum := reportCount_add_tf hrun hact
    refine ⟨hsum, fun e => ?_, fun htf => ⟨_, exec_sync_eq t, by rw [htf]; rfl⟩⟩
    calc reportCount (es ++ [e]) s
      _ = reportCount es s + reportCount [e] t := reportCount_append hrun [e]
      _ ≤ reportCount es s + t.ticks.tf.toNat := Nat.add_le_add_left (reportCount_singleton_le e t) _
      _ = s.ticks.tf.toNat := hsum
      _ ≤ 1 := Bool.toNat_le _

/-! ### Reading the counter in a section -/

theorem runPort_singleton {e : PortEvent} {s t : State} (h : portEvent e s = .next t) : runPort [e] s = .next t := by
  rw [runPort, h]
  rfl

theorem runPort_timerTicks (n : Nat) (s : State) :
    runPort (List.replicate n .timerTick) s =
      .next { s with ticks := (timerEvent s.cfg.tickWindow)^[n] s.ticks } := by
  induction n generalizing s with
  | zero => rfl
  | succ n ih => exact ih (timerTick s)

@[simp] theorem timerEvent_iterate_tie (w n : Nat) (t : TickState) : ((timerEvent w)^[n] t).tie = t.tie := by
  induction n generalizing t with
  | zero => rfl
  | succ n ih => rw [Function.iterate_succ_apply, ih, timerEvent_tie]

/-- While `TIE = 0` any number of pulses is held as one event. -/
theorem timerEvent_iterate_tick {w : Nat} {t : TickState} (h : t.tie = false) (n : Nat) :
    ((timerEvent w)^[n] t).tick = t.tick := by
  induction n generalizing t with
  | zero => rfl
  | succ n ih =>
    rw [Function.iterate_succ_apply, ih (by rw [timerEvent_tie, h]), timerEvent, h]
    rfl

theorem writeTctrl_zero (w : Nat) (t : TickState) : writeTctrl w 0x00#8 t = { t with tie := false } := by
  rw [writeTctrl_eq_ite, if_neg (by simp)]
  rfl

/-- However many pulses fall into a section, its counter is that of its opening. -/
theorem section_tick (w n : Nat) (t : TickState) : ((timerEvent w)^[n] (writeTctrl w 0x00#8 t)).tick = t.tick := by
  rw [timerEvent_iterate_tick (by rw [writeTctrl_zero]), writeTctrl_zero]

/-- The two bytes of the counter put together. -/
theorem byteOf16_toNat (v : BitVec 16) : (byteOf16 v 1).toNat * 256 + (byteOf16 v 0).toNat = v.toNat := by
  have hv := v.isLt
  simp only [byteOf16_eq, BitVec.toNat_ofNat]
  omega

/-- Bit 0 of what the host finds in `TCTRL` is `TIE`. -/
theorem tctrlByte_bit_zero (t : TickState) : (tctrlByte t &&& 0x01).getLsbD 0 = t.tie := by
  unfold tctrlByte
  cases t.tie <;> cases t.tf <;> cases t.tpend <;> decide

/-- An access after the run `es`, and `n` pulses in the gap after it. -/
theorem runPort_access_then_pulses {es : List PortEvent} {e : PortEvent} {s t u : State} (hes : runPort es s = .next t)
    (he : portEvent e t = .next u) (n : Nat) :
    runPort (es ++ [e] ++ List.replicate n .timerTick) s =
      .next { u with ticks := (timerEvent u.cfg.tickWindow)^[n] u.ticks } :=
  (runPort_append _ _ _ _ ((runPort_append _ _ _ _ hes).trans (runPort_singleton he))).trans (runPort_timerTicks n u)

/-- Settles O48: from the write that opens the section the counter stands still, so both reads find one value. -/
theorem readTickIsNeverTorn : Obligations.ReadTickIsNeverTorn := by
  unfold Obligations.ReadTickIsNeverTorn
  intro s n₀ n₁ n₂ n₃
  have h₀ := runPort_access_then_pulses (es := []) rfl (portEvent_read (off := 0x20) (by decide) s) n₀
  have h₁ := runPort_access_then_pulses h₀ (portEvent_write (off := 0x20) (by decide) (by decide) 0x00 _) n₁
  have h₂ := runPort_access_then_pulses h₁ (portEvent_read (off := 0x21) (by decide) _) n₂
  have h₃ := runPort_access_then_pulses h₂ (portEvent_read (off := 0x22) (by decide) _) n₃
  have h₄ := (runPort_append _ _ _ _ h₃).trans (runPort_singleton
    (portEvent_write (off := 0x20) (by decide) (by decide) (readReg s 0x20 &&& 0x01) _))
  have hlo := section_tick s.cfg.tickWindow n₁ ((timerEvent s.cfg.tickWindow)^[n₀] s.ticks)
  have hhi := section_tick s.cfg.tickWindow (n₂ + n₁) ((timerEvent s.cfg.tickWindow)^[n₀] s.ticks)
  rw [Function.iterate_add_apply] at hhi
  refine ⟨_, _, _, h₄, ?_, byteOf16_toNat _, (writeTctrl_tie _ _ _).trans (tctrlByte_bit_zero s.ticks)⟩
  exact congrArg₂ (fun hi lo => byteOf16 hi 1 :: byteOf16 lo 0 :: readReg s 0x20 :: s.reads) hhi hlo

/-! ### Pulses and commands -/

/-- What `body` does to the rest of the state does not depend on the tick group, which it leaves as it is. -/
def TickBlind (body : State → State) : Prop := ∀ s k, body { s with ticks := k } = { body s with ticks := k }

theorem tickBlind_unlessHeld {body : State → State} (h : TickBlind body) : TickBlind fun s => unlessHeld s body := by
  intro s k
  unfold unlessHeld
  dsimp only
  split
  · rfl
  · exact h s k

theorem tickBlind_busResetBody : TickBlind busResetBody := by
  intro s k
  rw [busResetBody_eq rfl, busResetBody_eq rfl]

theorem tickBlind_matchIdBody : TickBlind matchIdBody := by
  intro s k
  rw [matchIdBody_eq rfl, matchIdBody_eq rfl]

theorem tickBlind_searchBody (alarm : Bool) : TickBlind (searchBody alarm) := by
  intro s k
  rw [searchBody_eq rfl, searchBody_eq rfl]
  dsimp only
  split
  · rfl
  · rw [finishPass_eq, finishPass_eq]

theorem tickBlind_searchPassBody (alarm : Bool) : TickBlind (searchPassBody alarm) := by
  intro s k
  unfold searchPassBody
  dsimp only
  split
  · rfl
  · split
    · exact tickBlind_searchBody alarm { s with line := (busReset s.cfg s.line).2 } k
    · rfl

/-- Every command but `SYNC`. -/
theorem tickBlind_effect {i : Instr} (hi : i ≠ .sync) : TickBlind (effect i) := by
  cases i
  case sync => exact absurd rfl hi
  case busReset => exact tickBlind_unlessHeld tickBlind_busResetBody
  case matchId => exact tickBlind_unlessHeld tickBlind_matchIdBody
  case srchPass => exact tickBlind_unlessHeld (tickBlind_searchPassBody false)
  case srchPassA => exact tickBlind_unlessHeld (tickBlind_searchPassBody true)
  case writeBit | readBit | writeByte | readByte => exact tickBlind_unlessHeld fun _ _ => rfl
  case crcId =>
    intro s k
    rw [effect, effect, acceptIfZero_id, acceptIfZero_id]
  case spuOn | spuOff | crcStep | srchStart | srchStartA | setRdy | clrErr => exact fun _ _ => rfl

/-- Settles O49: the command leaves the tick group and the window as the pulse finds them. -/
theorem timerPulseCommutesWithCommands : Obligations.TimerPulseCommutesWithCommands := by
  unfold Obligations.TimerPulseCommutesWithCommands
  intro i s hi
  refine ⟨effect i s, exec_eq_effect i s, ?_⟩
  have hpulse : timerEvent (effect i s).cfg.tickWindow (effect i s).ticks = timerEvent s.cfg.tickWindow s.ticks := by
    rw [effect_ticks hi, (effect_keeps i s).1]
  rw [exec_eq_effect, timerTick, timerTick, tickBlind_effect hi, hpulse]

end Sys2Proof.Machine
end

section
/-! The laws of the CRC (42_crc8.md R144): the bit-serial form, linearity, and what a fold tells apart. -/
namespace Sys2Proof.Machine

/-! ### The step -/

/-- The bit-serial form shifts the running value and the data apart; the form of R140 shifts them together. -/
theorem crcShift_iterate_eq_crcSerial (n : Nat) (c d : Byte) :
    (crcShift 0x8C#8)^[n] (c ^^^ d) = crcSerial n c d ^^^ (d >>> n) := by
  induction n generalizing c d with
  | zero => simp [crcSerial]
  | succ n ih =>
    have hshift : crcShift 0x8C#8 (c ^^^ d) =
        (if c.getLsbD 0 != d.getLsbD 0 then (c >>> 1) ^^^ 0x8C#8 else c >>> 1) ^^^ (d >>> 1) := by
      unfold crcShift
      rw [BitVec.getLsbD_xor, BitVec.ushiftRight_xor_distrib]
      -- exclusive-or of two bits is their inequality
      change (if (c.getLsbD 0 != d.getLsbD 0) = true then _ else _) = _
      cases c.getLsbD 0 != d.getLsbD 0 with
      | false => rfl
      | true =>
        show c >>> 1 ^^^ d >>> 1 ^^^ 0x8C#8 = c >>> 1 ^^^ 0x8C#8 ^^^ d >>> 1
        ac_rfl
    rw [Function.iterate_succ_apply, hshift, ih, crcSerial, Nat.add_comm n 1, BitVec.shiftRight_add]

/-- Settles O26: after eight shifts nothing of the data is left apart. -/
theorem bitSerialCrcAgrees : Obligations.BitSerialCrcAgrees := by
  unfold Obligations.BitSerialCrcAgrees
  intro c d
  have hout : d >>> 8 = 0#8 := BitVec.ushiftRight_eq_zero (le_refl 8)
  rw [crc8Step, crcShift_iterate_eq_crcSerial, hout, BitVec.xor_zero]

theorem crc8Step_xor (p a b c d : Byte) : crc8Step p (a ^^^ b) (c ^^^ d) = crc8Step p a c ^^^ crc8Step p b d := by
  have hregroup : a ^^^ b ^^^ (c ^^^ d) = (a ^^^ c) ^^^ (b ^^^ d) := by ac_rfl
  rw [crc8Step, hregroup, crcShift_iterate_xor, crc8Step, crc8Step]

theorem crc8Step_comm (p a d : Byte) : crc8Step p a d = crc8Step p d a := by
  rw [crc8Step, BitVec.xor_comm, crc8Step]

/-- Settles O27: the step begins with the exclusive-or of its arguments and goes on with linear shifts. -/
theorem crcStepIsLinear : Obligations.CrcStepIsLinear := by
  unfold Obligations.CrcStepIsLinear
  intro p a b c d
  refine ⟨?_, crc8Step_xor p a b c d⟩
  rw [crc8Step, crc8Step, BitVec.zero_xor]

/-- A step gives zero for two equal arguments only. -/
theorem crc8Step_eq_zero_iff (a d : Byte) : crc8Step 0x8C#8 a d = 0#8 ↔ d = a := by
  constructor
  · intro h
    exact (BitVec.xor_eq_zero_iff.mp (crcShift_iterate_eq_zero _ h)).symm
  · rintro rfl
    rw [crc8Step, BitVec.xor_self]
    decide

/-! ### The fold -/

theorem crc8From_cons (p s b : Byte) (buf : List Byte) : crc8From p s (b :: buf) = crc8From p (crc8Step p s b) buf := rfl

/-- A fold is linear in its start value and its bytes together; here the second buffer is zero. -/
theorem crc8From_xor (p a b : Byte) (buf : List Byte) :
    crc8From p (a ^^^ b) buf = crc8From p a buf ^^^ crc8From p b (List.replicate buf.length 0#8) := by
  induction buf generalizing a b with
  | nil => rfl
  | cons x buf ih =>
    have hstep := crc8Step_xor p a b x 0#8
    rw [BitVec.xor_zero] at hstep
    rw [crc8From_cons, hstep, ih, crc8From_cons, List.length_cons, List.replicate_succ, crc8From_cons]

theorem crc8From_injective {a b : Byte} {buf : List Byte} (h : crc8From 0x8C#8 a buf = crc8From 0x8C#8 b buf) : a = b := by
  induction buf generalizing a b with
  | nil => exact h
  | cons x buf ih => exact crc8Step_injective (ih h)

/-- Settles O28: the start value enters linearly, and no step loses it. -/
theorem crcStartValueSeparates : Obligations.CrcStartValueSeparates := by
  unfold Obligations.CrcStartValueSeparates
  intro s s' buf
  refine ⟨?_, crc8From_injective⟩
  rw [← crc8From_xor, BitVec.zero_xor]

/-- Settles O29: the last step of a fold gives zero exactly for the running value itself. -/
theorem exactlyOneChecksumByte : Obligations.ExactlyOneChecksumByte := by
  unfold Obligations.ExactlyOneChecksumByte
  intro c buf last hpoly
  have hlast : crc8 c (buf ++ [last]) = crc8Step c.crcPoly (crc8 c buf) last := List.foldl_concat ..
  rw [hlast, hpoly, crc8Step_eq_zero_iff]

/-- Two buffers that differ in one byte have different folds. -/
theorem crc8From_set_ne {s v : Byte} {buf : List Byte} {k : Nat} (hk : k < buf.length) (hv : v ≠ buf[k]) :
    crc8From 0x8C#8 s (buf.set k v) ≠ crc8From 0x8C#8 s buf := by
  induction buf generalizing s k with
  | nil => exact absurd hk (Nat.not_lt_zero k)
  | cons x buf ih =>
    cases k with
    | zero =>
      intro h
      have hstep : crc8Step 0x8C#8 s v = crc8Step 0x8C#8 s x := crc8From_injective h
      rw [crc8Step_comm, crc8Step_comm _ s] at hstep
      exact hv (crc8Step_injective hstep)
    | succ k => exact ih (Nat.lt_of_succ_lt_succ hk) hv

/-- The byte of a position changes when its bit is flipped. -/
theorem setBit_flip_ne (v : Byte) {k : Nat} (hk : k < 8) : setBit v k (!v.getLsbD k) ≠ v := by
  intro h
  have hbit := getLsbD_setBit v k k (!v.getLsbD k) hk
  rw [h, if_pos rfl] at hbit
  exact absurd hbit (by simp)

/-- Settles O30: the flipped bit changes one byte, so the fold is no longer what it was. -/
theorem singleBitErrorIsCaught : Obligations.SingleBitErrorIsCaught := by
  unfold Obligations.SingleBitErrorIsCaught
  intro c buf i hpoly hzero h1 h64
  have hbyte : (i - 1) / 8 < buf.toList.length := by
    rw [Vector.length_toList]
    omega
  have hget : identByte buf ((i - 1) / 8) = buf.toList[(i - 1) / 8] := by
    rw [Vector.length_toList] at hbyte
    simp [identByte, hbyte]
  have hne : setBit (identByte buf ((i - 1) / 8)) ((i - 1) % 8) (!idbit buf i) ≠ buf.toList[(i - 1) / 8] := by
    rw [← hget]
    exact setBit_flip_ne _ (Nat.mod_lt _ (by decide))
  rw [← hzero, crc8Ident, crc8, crc8Ident, crc8, hpoly, setIdbit, setIdentByte, Vector.toList_setIfInBounds]
  exact crc8From_set_ne hbyte hne

end Sys2Proof.Machine
end

section
/-! Host sequences (30_encoding.md R99): loading an identity, folding bytes, probing the bus. -/
namespace Sys2Proof.Machine

theorem cmdEffect_encode (i : Instr) (s : State) : cmdEffect (encode i) s = effect i { s with cmd := encode i } := by
  rw [cmdEffect, decode_encode]

theorem runPort_wr {off : Nat} (h0 : off ≠ 0x00) (hoff : off ≤ 0x2F) (v : Byte) (es : List PortEvent) (s : State) :
    runPort (wr off v :: es) s = runPort es (writeReg off v s) := by
  rw [runPort, wr, portEvent_write h0 hoff]

theorem runPort_cmd (i : Instr) (es : List PortEvent) (s : State) :
    runPort (cmd i :: es) s = runPort es (effect i { s with cmd := encode i }) := by
  rw [runPort, cmd, wr, portEvent_cmd, cmdEffect_encode]

/-- Writing the eight bytes one after another leaves the buffer they come from. -/
theorem setIdentByte_all (old buf : Ident) :
    setIdentByte (setIdentByte (setIdentByte (setIdentByte (setIdentByte (setIdentByte (setIdentByte (setIdentByte old
      0 (identByte buf 0)) 1 (identByte buf 1)) 2 (identByte buf 2)) 3 (identByte buf 3)) 4 (identByte buf 4))
      5 (identByte buf 5)) 6 (identByte buf 6)) 7 (identByte buf 7) = buf := by
  apply Vector.ext
  intro k hk
  interval_cases k <;> simp [setIdentByte, identByte]

@[simp] theorem runPort_nil (s : State) : runPort [] s = .next s := rfl

theorem runPort_loadId (s : State) (buf : Ident) : runPort (loadId buf) s = .next { s with id := buf } := by
  simp [loadId, runPort_wr, writeReg, setIdentByte_all]

/-- The steps of the sequence `CRC8`, from any running value. -/
theorem runPort_crcSteps (bytes : List Byte) (es : List PortEvent) (s : State) :
    ∃ t, runPort (bytes.flatMap (fun b => [wr 0x02 b, cmd .crcStep]) ++ es) s = runPort es t ∧
      t.crc = crc8From s.cfg.crcPoly s.crc bytes ∧ t.reads = s.reads ∧ t.line = s.line := by
  induction bytes generalizing s with
  | nil => exact ⟨s, rfl, rfl, rfl, rfl⟩
  | cons b bytes ih =>
    obtain ⟨t, hrun, hcrc, hreads, hline⟩ := ih (effect .crcStep { writeReg 0x02 b s with cmd := encode .crcStep })
    refine ⟨t, ?_, hcrc, hreads, hline⟩
    rw [← hrun, List.flatMap_cons, List.append_assoc, List.cons_append, List.cons_append, List.nil_append,
      runPort_wr (by decide) (by decide), runPort_cmd]

/-- Settles O31: `LOAD_ID` overwrites all eight bytes; each pair of accesses of `CRC8` is one step of the fold. -/
theorem hostSequencesLoadAndFold : Obligations.HostSequencesLoadAndFold := by
  unfold Obligations.HostSequencesLoadAndFold
  refine ⟨runPort_loadId, fun s bytes => ?_⟩
  obtain ⟨t, hrun, hcrc, hreads, hline⟩ := runPort_crcSteps bytes [rd 0x05] (writeReg 0x05 0x00 s)
  refine ⟨hostRead 0x05 t, ?_, ?_, hline⟩
  · rw [pseudoCrc8, List.cons_append, runPort_wr (by decide) (by decide), hrun]
    exact runPort_singleton (portEvent_read (by decide) t)
  · rw [hostRead_reads, hreads]
    exact congrArg (· :: s.reads) hcrc

section
variable {s : State} (hspu : s.spu = false)
include hspu

theorem afterCmd_busReset : afterCmd .busReset s = busResetBody { s with cmd := encode .busReset } := by
  rw [afterCmd_eq, cmdEffect_encode]
  exact unlessHeld_free (s := { s with cmd := encode .busReset }) hspu _

theorem probe_of_noPresence (hp : (busReset s.cfg s.line).1 = false) :
    probe s = { s with
      cmd := encode .busReset, line := (busReset s.cfg s.line).2, res := 0x01#8, flags := s.flags ||| 0x08#8 } := by
  rw [probe, afterCmd_busReset hspu, busResetBody_eq (p := true) (by simp [hp])]
  rfl

theorem probe_of_presence (hp : (busReset s.cfg s.line).1 = true) :
    probe s = { s with
      cmd := encode .setRdy, line := (busReset s.cfg s.line).2, res := 0x00#8, data := 0x01#8
      flags := setReady s.flags 0x01#8 } := by
  rw [probe, afterCmd_busReset hspu, busResetBody_eq (p := false) (by simp [hp])]
  rfl

end

/-- Settles O32: the read of `RES` is the presence of the one reset pulse; `SET_RDY` then finds 0x01 in `DATA`. -/
theorem probeSetsBusReadyOnPresence : Obligations.ProbeSetsBusReadyOnPresence := by
  unfold Obligations.ProbeSetsBusReadyOnPresence
  intro s hspu
  refine ⟨!(busReset s.cfg s.line).1, ?_⟩
  rw [← busReset_trace]
  cases hp : (busReset s.cfg s.line).1 with
  | false =>
    rw [probe_of_noPresence hspu hp]
    exact ⟨rfl, rfl, rfl, rfl⟩
  | true =>
    rw [probe_of_presence hspu hp]
    exact ⟨rfl, rfl, rfl, rfl⟩

end Sys2Proof.Machine
end

section
/-! Discovery (43_discovery.md R157, R158): the passes of a run walk the identities on the line in ascending order. First the walk
itself, on the list `S` of identities; then a pass among devices, and the host's loop. -/
namespace Sys2Proof.Machine

/-! ### The order of identities -/

theorem bitStringLess_of_agrees {x y : Ident} {i : Nat} (hi : 1 ≤ i) (hi' : i ≤ 64) (hag : agreesBelow y x i)
    (hx : idbit x i = false) (hy : idbit y i = true) : bitStringLess x y :=
  ⟨i, hi, hi', fun j h1 h2 => (hag j h2 h1).symm, hx, hy⟩

theorem bitStringLess_irrefl (x : Ident) : ¬ bitStringLess x x := by
  rintro ⟨i, -, -, -, hzero, hone⟩
  rw [hzero] at hone
  cases hone

theorem bitStringLess_trans {x y z : Ident} (h : bitStringLess x y) (h' : bitStringLess y z) : bitStringLess x z := by
  obtain ⟨i, hi, hi', hxy, hxi, hyi⟩ := h
  obtain ⟨j, hj, hj', hyz, hyj, hzj⟩ := h'
  rcases Nat.lt_trichotomy i j with hij | rfl | hji
  · exact ⟨i, hi, hi', fun k h1 h2 => (hxy k h1 h2).trans (hyz k h1 (by omega)), hxi, (hyz i hi hij).symm.trans hyi⟩
  · rw [hyi] at hyj
    cases hyj
  · exact ⟨j, hj, hj', fun k h1 h2 => (hxy k h1 (by omega)).trans (hyz k h1 h2), (hxy j hj hji).trans hyj, hzj⟩

/-- Two different identities have a first position at which they differ. -/
theorem exists_first_difference {x y : Ident} (h : y ≠ x) :
    ∃ i, 1 ≤ i ∧ i ≤ 64 ∧ agreesBelow y x i ∧ idbit y i ≠ idbit x i := by
  have hex : ∃ i, 1 ≤ i ∧ i ≤ 64 ∧ idbit y i ≠ idbit x i := by
    by_contra hno
    push Not at hno
    exact h (ident_ext_idbit hno)
  obtain ⟨hi, hi', hne⟩ := Nat.find_spec hex
  refine ⟨Nat.find hex, hi, hi', fun j hj h1 => ?_, hne⟩
  by_contra hdiff
  exact Nat.find_min hex hj ⟨h1, by omega, hdiff⟩

/-! ### The walk over a list of identities -/

/-- A fork on the path of `r` among the identities `S`: those that agree with `r` below position `j` have both values at `j`. -/
def ForkIn (S : List Ident) (r : Ident) (j : Nat) : Prop :=
  (∃ x ∈ S, agreesBelow x r j ∧ idbit x j = false) ∧ (∃ x ∈ S, agreesBelow x r j ∧ idbit x j = true)

theorem forkAt_iff (ds : List Device) (r : Ident) (j : Nat) : forkAt ds r j ↔ ForkIn (ds.map Device.rom) r j := by
  simp [forkAt, ForkIn]

/-- The path of `r` takes at its forks the bits of R153, with the cursor `fork` and `prev`. -/
def Follows (S : List Ident) (fork : Nat) (prev r : Ident) : Prop :=
  ∀ j, 1 ≤ j → j ≤ 64 → ForkIn S r j → idbit r j = if j < fork then idbit prev j else decide (j = fork)

/-- `f` is the highest fork at which the path of `r` took 0, or 0 if there is none. -/
def HighestZeroFork (S : List Ident) (r : Ident) (f : Nat) : Prop :=
  (∀ j, 1 ≤ j → j ≤ 64 → ForkIn S r j → idbit r j = false → j ≤ f) ∧
  (f = 0 ∨ (1 ≤ f ∧ f ≤ 64 ∧ ForkIn S r f ∧ idbit r f = false))

/-- Where two identities of `S` part there is a fork. -/
theorem forkIn_of_difference {S : List Ident} {x y : Ident} {i : Nat} (hx : x ∈ S) (hy : y ∈ S) (hag : agreesBelow y x i)
    (hne : idbit y i ≠ idbit x i) : ForkIn S x i := by
  cases hxi : idbit x i with
  | false => exact ⟨⟨x, hx, fun _ _ _ => rfl, hxi⟩, y, hy, hag, by simpa [hxi] using hne⟩
  | true => exact ⟨⟨y, hy, hag, by simpa [hxi] using hne⟩, x, hx, fun _ _ _ => rfl, hxi⟩

theorem forkIn_congr {S : List Ident} {x y : Ident} {i : Nat} (h : agreesBelow y x i) : ForkIn S y i ↔ ForkIn S x i := by
  have hag : ∀ z, agreesBelow z y i ↔ agreesBelow z x i := fun z =>
    ⟨fun hz j h1 h2 => (hz j h1 h2).trans (h j h1 h2), fun hz j h1 h2 => (hz j h1 h2).trans (h j h1 h2).symm⟩
  simp only [ForkIn, hag]

/-- An identity above `x` parts from it at a fork where `x` took 0. -/
theorem zeroFork_of_less {S : List Ident} {x y : Ident} (hx : x ∈ S) (hy : y ∈ S) (h : bitStringLess x y) :
    ∃ i, 1 ≤ i ∧ i ≤ 64 ∧ agreesBelow y x i ∧ ForkIn S x i ∧ idbit x i = false ∧ idbit y i = true := by
  obtain ⟨i, hi, hi', hag, hxi, hyi⟩ := h
  have hag' : agreesBelow y x i := fun j h1 h2 => (hag j h2 h1).symm
  exact ⟨i, hi, hi', hag', forkIn_of_difference hx hy hag' (by rw [hxi, hyi]; decide), hxi, hyi⟩

/-- A path that takes 0 at every fork from position `p` on is the least of those that share it below `p`. -/
theorem eq_or_less_of_zeros {S : List Ident} {r y : Ident} {p : Nat} (hr : r ∈ S) (hy : y ∈ S) (hag : agreesBelow y r p)
    (hzeros : ∀ j, p ≤ j → 1 ≤ j → j ≤ 64 → ForkIn S r j → idbit r j = false) : y = r ∨ bitStringLess r y := by
  by_cases heq : y = r
  · exact .inl heq
  · obtain ⟨j, h1, h64, hagj, hne⟩ := exists_first_difference heq
    have hpj : p ≤ j := by
      by_contra hlt
      exact hne (hag j (by omega) h1)
    have hzero := hzeros j hpj h1 h64 (forkIn_of_difference hr hy hagj hne)
    exact .inr (bitStringLess_of_agrees h1 h64 hagj hzero (by simpa [hzero] using hne))

/-- From a new cursor the path is the least identity. -/
theorem least_of_follows_start {S : List Ident} {r : Ident} (hr : r ∈ S) (h : Follows S 65 Ident.zero r) :
    ∀ y ∈ S, y = r ∨ bitStringLess r y := by
  intro y hy
  refine eq_or_less_of_zeros (p := 0) hr hy (fun j h0 _ => absurd h0 (Nat.not_lt_zero j)) fun j _ h1 h64 hfork => ?_
  rw [h j h1 h64 hfork, if_pos (by omega), idbit_zero]

section
variable {S : List Ident} {x r : Ident} {f : Nat} (hx : x ∈ S) (hr : r ∈ S) (hf : HighestZeroFork S x f) (hf0 : f ≠ 0)
  (h : Follows S f x r)
include hx hr h

/-- Below the fork position the path is that of the previous pass. -/
theorem agreesBelow_of_follows (hf64 : f ≤ 64) : agreesBelow r x f := by
  intro j
  induction j using Nat.strong_induction_on with
  | _ j ih =>
    intro hj h1
    have hag : agreesBelow r x j := fun k hk => ih k hk (by omega)
    by_contra hne
    have hfork : ForkIn S r j := (forkIn_congr hag).mpr (forkIn_of_difference hx hr hag hne)
    exact hne (by rw [h j h1 (by omega) hfork, if_pos hj])

include hf hf0

/-- The path of the next pass is the next identity: it is above `x`, and what else is above `x` is above it. -/
theorem successor_of_follows : bitStringLess x r ∧ ∀ y ∈ S, bitStringLess x y → y = r ∨ bitStringLess r y := by
  obtain ⟨hhighest, rfl | ⟨h1, h64, hfork, hxf⟩⟩ := hf
  · exact absurd rfl hf0
  have hag := agreesBelow_of_follows hx hr h h64
  have hrf : idbit r f = true := by
    rw [h f h1 h64 ((forkIn_congr hag).mpr hfork), if_neg (Nat.lt_irrefl f)]
    exact decide_eq_true rfl
  refine ⟨bitStringLess_of_agrees h1 h64 hag hxf hrf, fun y hy hless => ?_⟩
  obtain ⟨i, hi, hi', hagi, hforki, hxi, hyi⟩ := zeroFork_of_less hx hy hless
  have hyr : ∀ j, j < i → 1 ≤ j → idbit y j = idbit r j := fun j hj hj1 =>
    (hagi j hj hj1).trans (hag j (by have := hhighest i hi hi' hforki hxi; omega) hj1).symm
  obtain hif | rfl := Nat.lt_or_eq_of_le (hhighest i hi hi' hforki hxi)
  · -- `y` parts from `x` while the new path still follows `x`
    exact .inr (bitStringLess_of_agrees hi hi' hyr ((hag i hif hi).trans hxi) hyi)
  · -- `y` shares the 1 that the new path took; above it the path takes 0
    have hagy : agreesBelow y r (i + 1) := (agreesBelow_succ y r i hi).mpr ⟨hyr, by rw [hyi, hrf]⟩
    refine eq_or_less_of_zeros hr hy hagy fun j hj hj1 hj64 hforkj => ?_
    rw [h j hj1 hj64 hforkj, if_neg (by omega)]
    exact decide_eq_false (by omega)

end

/-- The identities `T` are those that the passes from the cursor `fork`, `prev` on still find: the one that the next pass finds,
and those above it. -/
def Upcoming (S T : List Ident) (fork : Nat) (prev : Ident) : Prop :=
  ∀ r ∈ S, Follows S fork prev r → ∀ y, y ∈ T ↔ y ∈ S ∧ (y = r ∨ bitStringLess r y)

theorem upcoming_start (S : List Ident) : Upcoming S S 65 Ident.zero :=
  fun _ hr h y => ⟨fun hy => ⟨hy, least_of_follows_start hr h y hy⟩, fun hy => hy.1⟩

section
variable {S T : List Ident} {fork f : Nat} {prev r : Ident} (hT : Upcoming S T fork prev) (hr : r ∈ S)
  (hfollows : Follows S fork prev r)
include hT hr hfollows

theorem mem_of_upcoming : r ∈ T := (hT r hr hfollows r).mpr ⟨hr, .inl rfl⟩

variable (hnodup : T.Nodup)
include hnodup

/-- Without the identity just found, those above it are left. -/
theorem mem_erase_of_upcoming (y : Ident) : y ∈ T.erase r ↔ y ∈ S ∧ bitStringLess r y := by
  rw [hnodup.mem_erase_iff, hT r hr hfollows y]
  constructor
  · rintro ⟨hne, hy, rfl | hless⟩
    · exact absurd rfl hne
    · exact ⟨hy, hless⟩
  · rintro ⟨hy, hless⟩
    exact ⟨by rintro rfl; exact bitStringLess_irrefl _ hless, hy, .inr hless⟩

variable (hf : HighestZeroFork S r f)
include hf

/-- The cursor that the pass leaves is that of the identities left. -/
theorem upcoming_next (hf0 : f ≠ 0) : Upcoming S (T.erase r) f r := by
  intro r' hr' hfollows' y
  obtain ⟨hless, hnext⟩ := successor_of_follows hr hr' hf hf0 hfollows'
  rw [mem_erase_of_upcoming hT hr hfollows hnodup]
  refine and_congr_right fun hy => ⟨hnext y hy, ?_⟩
  rintro (rfl | hless')
  · exact hless
  · exact bitStringLess_trans hless hless'

/-- `FORK = 0` after the pass that found the greatest identity. -/
theorem erase_eq_nil_of_upcoming (hf0 : f = 0) : T.erase r = [] := by
  refine List.eq_nil_iff_forall_not_mem.mpr fun y hy => ?_
  obtain ⟨hyS, hless⟩ := (mem_erase_of_upcoming hT hr hfollows hnodup y).mp hy
  obtain ⟨i, h1, h64, -, hfork, hzero, -⟩ := zeroFork_of_less hr hyS hless
  have := hf.1 i h1 h64 hfork hzero
  omega

end

/-! ### A pass among devices -/

/-- After the search byte every device takes part from position 1 on. -/
theorem writeByte_env_search (c : Config) {l : Line} {ds : List Device} {settled : Bool}
    (h : l.env = .reference ⟨ds.map (fun d => { d with st := .command 0 0#8 }), false, settled⟩) :
    (writeByte c (searchByte c false) l).env = .reference ⟨ds.map (Device.before Ident.zero 1), false, settled⟩ := by
  rw [writeByte_env_command _ _ h]
  congr 2
  refine List.map_congr_left fun d _ => ?_
  have hag : agreesBelow d.rom Ident.zero 1 := fun j hj h1 => absurd hj (by omega)
  have hdecode : d.decodeWire c (searchByte c false) = .search 1 .trueBit := by
    rw [Device.decodeWire]
    exact if_pos rfl
  rw [Device.before, if_pos hag, hdecode]
  rfl

/-- A pass among devices whose identities all fold to zero: it is accepted, and its path is the identity of a device. -/
theorem searchPass_reference {s : State} {ds : List Device} {settled : Bool} (hspu : s.spu = false) (hfork : s.fork ≠ 0#8)
    (henv : s.line.env = .reference ⟨ds, false, settled⟩) (hds : ds ≠ []) (hcrc : ∀ d ∈ ds, crc8Ident s.cfg d.rom = 0#8) :
    ∃ (r : Ident) (f : Nat) (l : Line) (ds' : List Device),
      searchPass false s = { s with
        line := l, id := r, prev := r, fork := BitVec.ofNat 8 f, crc := 0x00#8, res := 0x00#8, cntN := s.cntN + 1 } ∧
      l.env = .reference ⟨ds', false, true⟩ ∧ ds'.map Device.rom = ds.map Device.rom ∧ r ∈ ds.map Device.rom ∧
      Follows (ds.map Device.rom) s.fork.toNat s.prev r ∧ HighestZeroFork (ds.map Device.rom) r f := by
  have hp : (busReset s.cfg s.line).1 = true := (busReset_presence_reference s.cfg henv).mpr (.inl hds)
  obtain ⟨d₀, hd₀⟩ := List.exists_mem_of_ne_nil ds hds
  obtain ⟨r, f, hloop, hend, -, ⟨d, hd, hrom⟩, ⟨ds', henv', hroms⟩, hfollows, hhighest, hf⟩ :=
    searchLoop_reference s.cfg ds s.fork.toNat s.prev 64 1 0 _ Ident.zero (le_refl 1) rfl
      (writeByte_env_search s.cfg (busReset_env_reference s.cfg henv)) ⟨d₀, hd₀, fun j hj h1 => absurd hj (by omega)⟩
  simp only [forkAt_iff] at hfollows hhighest hf
  have hzero : crc8Ident s.cfg r.id = 0#8 := hrom ▸ hcrc d hd
  refine ⟨r.id, f, r.line, ds', ?_, henv', hroms, List.mem_map.mpr ⟨d, hd, hrom⟩,
    fun j h1 h64 => hfollows j h1 (by omega), fun j h1 h64 => hhighest j h1 (by omega), ?_⟩
  · rw [searchPass_of_presence false hspu hfork hp,
      searchBody_eq (s := { s with line := (busReset s.cfg s.line).2 }) hloop, hend]
    dsimp only
    rw [finishPass_eq]
    simp [hzero]
  · obtain ⟨h, -⟩ | ⟨h1, h64, hfork, hbit⟩ := hf
    · exact .inl h
    · exact .inr ⟨h1, by omega, hfork, hbit⟩

/-! ### The host's loop -/

/-- What the run `R` gives that was to deliver the identities `T`, the count standing at `c` and `FLAGS` at `flags` before it. -/
structure RunDelivers (T : List Ident) (c : Nat) (flags : Byte) (R : Run) : Prop where
  ending : R.ending = .finished (BitVec.ofNat 8 (c + T.length))
  passes : R.passes = T.length
  perm : (R.delivered.map Prod.fst).Perm T
  ascending : (R.delivered.map Prod.fst).Pairwise bitStringLess
  indices : R.delivered.map Prod.snd = (List.range' c T.length).map (BitVec.ofNat 8)
  fork : R.state.fork = 0#8
  count : R.state.cntN = BitVec.ofNat 8 (c + T.length)
  flags : R.state.flags = flags

/-- The run that ends with the pass just made. -/
theorem runDelivers_last {r : Ident} {c : Nat} {t : State} (hfork : t.fork = 0#8) (hcount : t.cntN = BitVec.ofNat 8 (c + 1)) :
    RunDelivers [r] c t.flags ⟨.finished t.cntN, 1, [(r, BitVec.ofNat 8 c)], t⟩ where
  ending := congrArg RunEnd.finished hcount
  passes := rfl
  perm := List.Perm.refl _
  ascending := List.pairwise_singleton _ _
  indices := rfl
  fork := hfork
  count := hcount
  flags := rfl

/-- The pass that found `r`, before the run that delivers the identities above it. -/
theorem runDelivers_cons {T : List Ident} {r : Ident} {c : Nat} {flags : Byte} {R : Run} (hr : r ∈ T)
    (hless : ∀ y ∈ T.erase r, bitStringLess r y) (hR : RunDelivers (T.erase r) (c + 1) flags R) :
    RunDelivers T c flags { R with passes := R.passes + 1, delivered := (r, BitVec.ofNat 8 c) :: R.delivered } := by
  have hlength : T.length = (T.erase r).length + 1 := by
    rw [List.length_erase_of_mem hr]
    have := List.length_pos_of_mem hr
    omega
  have hsum : c + 1 + (T.erase r).length = c + T.length := by omega
  obtain ⟨hending, hpasses, hperm, hascending, hindices, hfork, hcount, hflags⟩ := hR
  rw [hsum] at hending hcount
  refine ⟨hending, by rw [hpasses, hlength], ?_, ?_, ?_, hfork, hcount, hflags⟩
  · exact (hperm.cons r).trans (List.perm_cons_erase hr).symm
  · exact List.pairwise_cons.mpr ⟨fun y hy => hless y (hperm.mem_iff.mp hy), hascending⟩
  · rw [List.map_cons, hindices, hlength, List.range'_succ, List.map_cons]

theorem readIdent_eq (s : State) : readIdent s = s.id := by
  apply Vector.ext
  intro k hk
  interval_cases k <;> simp [readIdent, readReg, identByte]

/-- The host's loop over a pass that is accepted. -/
theorem discoverLoop_accepted {s t : State} (n : Nat) (ht : afterCmd (passCmd false) s = t) (hres : t.res = 0x00#8) :
    discoverLoop false (n + 1) s =
      if t.fork = 0x00#8 then ⟨.finished t.cntN, 1, [(t.id, t.cntN - 1#8)], t⟩
      else { discoverLoop false n t with
        passes := (discoverLoop false n t).passes + 1
        delivered := (t.id, t.cntN - 1#8) :: (discoverLoop false n t).delivered } := by
  have hread : readReg t 0x01 = 0x00#8 := hres
  rw [discoverLoop, ht]
  simp only [hread, readIdent_eq]
  rfl

/-- A state between two passes of a run over the identities `S`: those in `T` are still to come, `c` have been delivered. -/
structure Searching (S T : List Ident) (c : Nat) (s : State) : Prop where
  spu : s.spu = false
  cursor : s.fork ≠ 0#8
  env : ∃ ds settled, s.line.env = .reference ⟨ds, false, settled⟩ ∧ ds.map Device.rom = S
  nonempty : S ≠ []
  folds : ∀ x ∈ S, crc8Ident s.cfg x = 0#8
  nodup : T.Nodup
  upcoming : Upcoming S T s.fork.toNat s.prev
  count : s.cntN = BitVec.ofNat 8 c

/-- What the next pass of a run does. -/
theorem searching_pass {S T : List Ident} {c : Nat} {s : State} (h : Searching S T c s) :
    ∃ t r, afterCmd (passCmd false) s = t ∧ t.res = 0x00#8 ∧ t.id = r ∧ t.cntN = BitVec.ofNat 8 (c + 1) ∧ t.flags = s.flags ∧
      r ∈ T ∧ (∀ y ∈ T.erase r, bitStringLess r y) ∧
      ((t.fork = 0#8 ∧ T.erase r = []) ∨ (t.fork ≠ 0#8 ∧ Searching S (T.erase r) (c + 1) t)) := by
  obtain ⟨hspu, hcursor, ⟨ds, settled, henv, rfl⟩, hne, hfolds, hnodup, hupcoming, hcount⟩ := h
  obtain ⟨r, f, l, ds', hpass, henv', hroms, hr, hfollows, hf⟩ :=
    searchPass_reference (s := { s with cmd := encode .srchPass }) hspu hcursor henv (by simpa using hne)
      fun d hd => hfolds _ (List.mem_map_of_mem hd)
  have hcount' : s.cntN + 1 = BitVec.ofNat 8 (c + 1) := by
    rw [hcount, BitVec.ofNat_add]
    rfl
  have hf64 : f ≤ 64 := by obtain rfl | ⟨-, h, -⟩ := hf.2 <;> omega
  have hfnat : (BitVec.ofNat 8 f).toNat = f := by
    rw [BitVec.toNat_ofNat]
    exact Nat.mod_eq_of_lt (by omega)
  refine ⟨{ s with
      cmd := encode .srchPass, line := l, id := r, prev := r, fork := BitVec.ofNat 8 f, crc := 0x00#8, res := 0x00#8
      cntN := s.cntN + 1 }, r, ?_, rfl, rfl, hcount', rfl, mem_of_upcoming hupcoming hr hfollows,
    fun y hy => ((mem_erase_of_upcoming hupcoming hr hfollows hnodup y).mp hy).2, ?_⟩
  · rw [afterCmd_eq, passCmd, if_neg Bool.false_ne_true, cmdEffect_encode, effect, hpass]
  · by_cases hf0 : f = 0
    · exact .inl ⟨by rw [hf0], erase_eq_nil_of_upcoming hupcoming hr hfollows hnodup hf hf0⟩
    · have hfork : BitVec.ofNat 8 f ≠ 0#8 := fun h => hf0 (by rw [← hfnat, h]; rfl)
      refine .inr ⟨hfork, hspu, hfork, ⟨ds', true, henv', hroms⟩, hne, hfolds, hnodup.erase r, ?_, hcount'⟩
      dsimp only
      rw [hfnat]
      exact upcoming_next hupcoming hr hfollows hnodup hf hf0

/-- The loop makes one pass for each identity still to come. -/
theorem runDelivers_discoverLoop {S : List Ident} (n : Nat) {T : List Ident} {c : Nat} {s : State} (h : Searching S T c s)
    (hn : T.length ≤ n) : RunDelivers T c s.flags (discoverLoop false n s) := by
  induction n generalizing T c s with
  | zero =>
    obtain ⟨-, r, -, -, -, -, -, hr, -⟩ := searching_pass h
    exact absurd (List.length_pos_of_mem hr) (by omega)
  | succ n ih =>
    obtain ⟨t, r, ht, hres, rfl, hcount, hflags, hr, hless, hnext⟩ := searching_pass h
    have hindex : t.cntN - 1#8 = BitVec.ofNat 8 c := by
      rw [hcount, BitVec.ofNat_add]
      exact BitVec.add_sub_cancel _ _
    rw [discoverLoop_accepted n ht hres, hindex, ← hflags]
    obtain ⟨hfork, hlast⟩ | ⟨hfork, hsearching⟩ := hnext
    · have hT : T = [t.id] := by
        have hperm := List.perm_cons_erase hr
        rw [hlast] at hperm
        exact List.perm_singleton.mp hperm
      rw [if_pos hfork, hT]
      exact runDelivers_last hfork hcount
    · have hlength : (T.erase t.id).length ≤ n := by
        rw [List.length_erase_of_mem hr]
        omega
      rw [if_neg hfork]
      exact runDelivers_cons hr hless (ih hsearching hlength)

theorem afterCmd_start {s : State} (hfork : s.cfg.forkStart = 65#8) :
    afterCmd (startCmd false) s = { s with
      cmd := encode .srchStart, fork := 65#8, id := Ident.zero, prev := Ident.zero, cntN := 0x00#8, res := 0x00#8 } := by
  rw [afterCmd_eq, startCmd, if_neg Bool.false_ne_true, cmdEffect_encode, ← hfork]
  rfl

/-- The start command leaves the state before the first pass, with every identity still to come. -/
theorem searching_start {s : State} {ds : List Device} {settled : Bool} (hspu : s.spu = false) (hds : ds ≠ [])
    (henv : s.line.env = .reference ⟨ds, false, settled⟩) (hnodup : (ds.map Device.rom).Nodup)
    (hcrc : ∀ d ∈ ds, crc8Ident s.cfg d.rom = 0#8) (hfork : s.cfg.forkStart = 65#8) :
    Searching (ds.map Device.rom) (ds.map Device.rom) 0 (afterCmd (startCmd false) s) := by
  rw [afterCmd_start hfork]
  refine ⟨hspu, (by decide : (65#8 : Byte) ≠ 0#8), ⟨ds, settled, henv, rfl⟩, by simpa using hds, fun x hx => ?_, hnodup,
    upcoming_start _, rfl⟩
  obtain ⟨d, hd, rfl⟩ := List.mem_map.mp hx
  exact hcrc d hd

/-- A first pass that finds no presence ends the run. -/
theorem discover_of_noPresence {s : State} (hspu : s.spu = false) (hp : (busReset s.cfg s.line).1 = false)
    (hfork : s.cfg.forkStart = 65#8) (m : Nat) :
    ∃ t, discover false (m + 1) s = ⟨.fault, 1, [], t⟩ ∧ t.line = (busReset s.cfg s.line).2 := by
  have hpass : (afterCmd (passCmd false) (afterCmd (startCmd false) s)).res = 0x01#8 ∧
      (afterCmd (passCmd false) (afterCmd (startCmd false) s)).line = (busReset s.cfg s.line).2 := by
    rw [afterCmd_start hfork, afterCmd_eq, passCmd, if_neg Bool.false_ne_true, cmdEffect_encode, effect,
      searchPass_of_noPresence false (by exact hspu) (by exact (by decide : (65#8 : Byte) ≠ 0#8)) (by exact hp)]
    exact ⟨rfl, rfl⟩
  exact ⟨_, if_pos hpass.1, hpass.2⟩

/-- Settles O39: with devices the loop delivers the identities one pass each; without one the first pass ends in its reset. -/
theorem discoveryFindsEveryDeviceOnce : Obligations.DiscoveryFindsEveryDeviceOnce := by
  unfold Obligations.DiscoveryFindsEveryDeviceOnce
  constructor
  · intro s ds settled n hspu hds henv hnodup hcrc hfork hn
    have hlength : (ds.map Device.rom).length = ds.length := List.length_map _
    obtain ⟨hending, hpasses, hperm, hascending, hindices, hfork', hcount, hflags⟩ :=
      runDelivers_discoverLoop n (searching_start hspu hds henv hnodup hcrc hfork) (hlength.le.trans hn)
    rw [hlength, Nat.zero_add] at hending hcount
    rw [hlength] at hpasses hindices
    refine ⟨_, rfl, hending, hpasses, ?_, hperm, hascending, ?_, hfork', hcount, ?_⟩
    · exact (List.length_map _).symm.trans (hperm.length_eq.trans hlength)
    · rw [List.range_eq_range']
      exact hindices
    · exact hflags.trans (by rw [afterCmd_start hfork])
  · intro s settled n hspu henv hfork hn
    obtain ⟨m, rfl⟩ := Nat.exists_eq_add_of_le' hn
    have hp : (busReset s.cfg s.line).1 = false := by
      rw [← Bool.not_eq_true, busReset_presence_reference s.cfg henv]
      simp
    obtain ⟨t, hrun, hline⟩ := discover_of_noPresence hspu hp hfork m
    refine ⟨_, hrun, rfl, rfl, rfl, ?_⟩
    rw [hline, busReset_trace, hp, Bool.not_false]

end Sys2Proof.Machine
end
